-- ==== Sys2Proof/Word.lean ====
section
/-! DEFINITION. The widths of SDES-CORE (00_scope.md R8, R10, R12). A bit sequence of length n is a `BitVec n`;
position 1 of the sequence is its most significant bit, so `seq_n` and `val` of R12 are the identity here. -/

namespace Sys2Proof

/-- An 8-bit block (R8). -/
abbrev Block := BitVec 8
/-- A 10-bit master key (R8). -/
abbrev Key := BitVec 10
/-- An 8-bit round subkey (R8). -/
abbrev Subkey := BitVec 8
/-- A 4-bit half-block (R8). -/
abbrev Half := BitVec 4
/-- A 5-bit key half (R8). -/
abbrev KeyHalf := BitVec 5
/-- The host bus data word (20_memory.md R51), also the command word (30_encoding.md R80). -/
abbrev BusWord := BitVec 32
/-- A byte offset into the register window (20_memory.md R50). -/
abbrev Offset := BitVec 13
/-- An 11-bit count: NW, NWL and RCOUNT (30_encoding.md R83, 10_state.md R26). -/
abbrev Count := BitVec 11

end Sys2Proof
end

