-- ==== Sys2Proof/Syntax.lean ====
section
/-! DEFINITION. The commands of the opcode table (30_encoding.md R80 to R83), whole. -/

namespace Sys2Proof

/-- The four opcodes of R81: what the command latch OPL holds (10_state.md R37). -/
inductive Opcode where
  | encrypt
  | decrypt
  | keysched
  | search
  deriving DecidableEq, Repr

/-- One constructor per row of spec/opcode_table.json. NW is the only operand field of the word (R83). -/
inductive Instr where
  | encrypt
  | decrypt
  | keysched
  | search (nw : Count)
  deriving DecidableEq, Repr

/-- The OP field of a command. -/
def Instr.opcode : Instr → Opcode
  | .encrypt => .encrypt
  | .decrypt => .decrypt
  | .keysched => .keysched
  | .search _ => .search

/-- The NW field of a command: 0 unless the command is SEARCH (R83). -/
def Instr.nw : Instr → Count
  | .encrypt => 0
  | .decrypt => 0
  | .keysched => 0
  | .search nw => nw

/-- The command errors of 60_exceptions.md R231. -/
inductive CmdError where
  | illegalCmd
  | badArg
  | busyWrite
  deriving DecidableEq, Repr

end Sys2Proof
end

