-- ==== Sys2Proof/WellFormed.lean ====
section
/-! DEFINITION. Well-formed commands (30_encoding.md R83). -/

namespace Sys2Proof

/-- The legal worker counts, 1 to 1024 (R83). -/
def nwLegal (nw : Count) : Bool := decide (1 ≤ nw.toNat) && decide (nw.toNat ≤ 1024)

/-- A command is well formed when its worker count, if it has one, is legal. -/
def Instr.wf : Instr → Bool
  | .encrypt => true
  | .decrypt => true
  | .keysched => true
  | .search nw => nwLegal nw

end Sys2Proof
end

