-- ==== Sys2Proof/Decode.lean ====
section
/-! DEFINITION. The command decoder of 30_encoding.md R85, total on all 2^32 words, and the encoder written from
the format of R80 and the opcodes of R81. -/

namespace Sys2Proof

/-- What the decoder answers (R85): the command, or the code of the error the word records. -/
inductive Decoded where
  | accept (i : Instr)
  | illegal (code : CmdError)
  deriving DecidableEq, Repr

/-- The field OP, bits 3 to 0 (R80). -/
def fieldOP (w : BusWord) : BitVec 4 := w.extractLsb' 0 4
/-- The field RSV0, bits 15 to 4 (R80). -/
def fieldRSV0 (w : BusWord) : BitVec 12 := w.extractLsb' 4 12
/-- The field NW, bits 26 to 16 (R80). -/
def fieldNW (w : BusWord) : Count := w.extractLsb' 16 11
/-- The field RSV1, bits 31 to 27 (R80). -/
def fieldRSV1 (w : BusWord) : BitVec 5 := w.extractLsb' 27 5

/-- The opcode values of R81; every other value is reserved. -/
def opcodeOf (op : BitVec 4) : Option Opcode :=
  if op = 0x1#4 then some .encrypt
  else if op = 0x2#4 then some .decrypt
  else if op = 0x3#4 then some .keysched
  else if op = 0x4#4 then some .search
  else none

/-- The OP value of an opcode (R81). -/
def opcodeValue : Opcode → BitVec 4
  | .encrypt => 0x1#4
  | .decrypt => 0x2#4
  | .keysched => 0x3#4
  | .search => 0x4#4

/-- The command of an opcode and an NW field that R83 allows together; otherwise the error R83 names. -/
def withNW (op : Opcode) (nw : Count) : Decoded :=
  match op with
  | .encrypt => if nw = 0#11 then .accept .encrypt else .illegal .illegalCmd
  | .decrypt => if nw = 0#11 then .accept .decrypt else .illegal .illegalCmd
  | .keysched => if nw = 0#11 then .accept .keysched else .illegal .illegalCmd
  | .search => if nwLegal nw then .accept (.search nw) else .illegal .badArg

/-- Decode of R85, its checks in its order: reserved fields, OP, NW of a command without workers, NW of SEARCH. -/
def decode (w : BusWord) : Decoded :=
  if fieldRSV0 w ≠ 0#12 ∨ fieldRSV1 w ≠ 0#5 then .illegal .illegalCmd
  else
    match opcodeOf (fieldOP w) with
    | none => .illegal .illegalCmd
    | some op => withNW op (fieldNW w)

/-- The word of a command: RSV1, NW, RSV0, OP from the most significant end (R80). -/
def encode (i : Instr) : BusWord := 0#5 ++ i.nw ++ 0#12 ++ opcodeValue i.opcode

/-- The command the decoder reads from a table word. A command is one 32-bit word (R88), bit 0 the least
significant in the table as on the bus (20_memory.md R60); bits above `nbits` are 0. -/
def decodeTableWord (nbits w : Nat) : Option Instr :=
  if nbits ≤ 32 then
    match decode (BitVec.ofNat 32 (w % 2 ^ nbits)) with
    | .accept i => some i
    | .illegal _ => none
  else none

end Sys2Proof
end

