-- ==== Sys2Proof/Config.lean ====
section
/-! DEFINITION. What an implementation fixes (00_scope.md R9) and the free values of the spec's open points. The
table contents stand in Machine/Tables.lean. -/

namespace Sys2Proof

/-- The two contents of S0 and S1 that R113 and R114 (40_primitives.md) leave open. -/
inductive SboxVariant where
  | A
  | B
  deriving DecidableEq, Repr, Inhabited

/-- The configuration record TABLES (40_primitives.md R106): eight constants. A permutation table is the ordered
sequence of its 1-based source positions; a substitution table is the list of its rows. -/
structure Tables where
  p10 : List Nat
  p8 : List Nat
  ip : List Nat
  ipInv : List Nat
  ep : List Nat
  p4 : List Nat
  s0 : List (List Nat)
  s1 : List (List Nat)
  deriving DecidableEq, Repr

namespace Config

/-- SBOX_VARIANT, OPEN (92_eei_decisions.md D5, log 11): no value of it can be proved. -/
opaque sboxVariant : SboxVariant

/-- The value the n-th unspecified read answers when it reads RCOUNT: any 11-bit value (20_memory.md R56, log 10). -/
opaque anyCount : Nat → Count

/-- The value the n-th unspecified read answers when it reads a RES entry: any 10-bit value (R56, log 10). -/
opaque anyKey : Nat → Key

end Config

end Sys2Proof
end

