-- ==== Sys2Proof/Machine/State.lean ====
section
/-! DEFINITION. The state of SDES-CORE (10_state.md), its events, its stops, and the state after reset. -/

namespace Sys2Proof.Machine

/-- The cipher phase register PH (10_state.md R38). -/
inductive Phase where
  | idle
  | ks
  | ip
  | r1
  | sw
  | r2
  | fp
  deriving DecidableEq, Repr

/-- The cipher working registers (10_state.md R39): L, R, KA, KB. A search worker's lane has its own copy. -/
structure Lane where
  l : Half
  r : Half
  ka : Subkey
  kb : Subkey
  deriving DecidableEq, Repr

/-- The search state of one worker (10_state.md R41): lo_w, hi_w, i_w, LB_w, fin_w, and the working registers of
the lane it runs on (R39, 43_key_search.md R202; log 15). -/
structure Worker where
  lo : Nat
  hi : Nat
  i : Nat
  lb : List Key
  fin : Bool
  lane : Lane
  deriving DecidableEq, Repr

/-- The sizes the bus can signal (20_memory.md R51): 1, 2 or 4 bytes. -/
inductive Size where
  | byte
  | half
  | word
  deriving DecidableEq, Repr

/-- The direction of a host access (20_memory.md R54). -/
inductive Dir where
  | read
  | write
  deriving DecidableEq, Repr

/-- A host access (20_memory.md R51). -/
inductive Access where
  | read (off : Offset) (size : Size)
  | write (off : Offset) (size : Size) (wdata : BusWord)
  deriving DecidableEq, Repr

/-- A move of the CORE. `complete` is the atomic step of 70_reset_and_hazards.md R278. The others are the internal
transfers it is made of (log 4): one phase of 42_cipher.md R162, one candidate of worker w (43_key_search.md R194),
one step of the aggregator after the join (R195, R196). -/
inductive CoreMove where
  | complete
  | phase
  | worker (w : Nat)
  | merge
  deriving DecidableEq, Repr

/-- What happens next: a host access, a CORE move, or the reset event, in one total order (20_memory.md R62,
70_reset_and_hazards.md R271). -/
inductive Event where
  | access (a : Access)
  | core (m : CoreMove)
  | reset
  deriving DecidableEq, Repr

/-- The bus response of an access (20_memory.md R51): OK, OK with read data, or BusError with the offset. -/
inductive Response where
  | ok
  | data (v : BusWord)
  | busError (off : Offset)
  deriving DecidableEq, Repr

/-- The machine. Field by field as INVENTORY.md lists it; `inputs`, `resp` and `draws` are the model's own. -/
structure State where
  /-- DIN (R21). -/
  din : Block
  /-- KEY (R22). -/
  key : Key
  /-- TGT (R23). -/
  tgt : Block
  /-- DOUT (R24). -/
  dout : Block
  /-- SUBKEY: K2 in bits 15 to 8, K1 in bits 7 to 0 (R25). -/
  subkey : BitVec 16
  /-- RCOUNT (R26). -/
  rcount : Count
  /-- RES: the specified entries, RES[0] first; an entry past the list holds no value of its own (R27, log 9). -/
  res : List Key
  /-- STATUS.BUSY (R28). -/
  busy : Bool
  /-- STATUS.DONE (R29). -/
  done : Bool
  /-- STATUS.ERR (R30). -/
  err : Bool
  /-- STATUS.ECODE (R31). -/
  ecode : BitVec 3
  /-- IRQEN.DONEIE (R32). -/
  doneie : Bool
  /-- IRQEN.ERRIE (R32). -/
  errie : Bool
  /-- OPL, the accepted opcode, or none (R37). -/
  opl : Option Opcode
  /-- NWL, the accepted worker count (R37). -/
  nwl : Count
  /-- PIN, the snapshot of DIN (R37). -/
  pin : Block
  /-- KIN, the snapshot of KEY (R37). -/
  kin : Key
  /-- TIN, the snapshot of TGT (R37). -/
  tin : Block
  /-- PH (R38). -/
  ph : Phase
  /-- L, R, KA, KB of the cipher engine (R39). -/
  lane : Lane
  /-- The workers of the search in progress, worker 0 first; empty when there is none (R41). -/
  workers : List Worker
  /-- The merge position of the aggregator: how many worker buffers it has taken (R41). -/
  mergePos : Nat
  /-- The events still to happen, next first (the model's own: log 1, log 2). -/
  inputs : List Event
  /-- The response of the last host access since reset (the model's own: log 14). -/
  resp : Option Response
  /-- How many unspecified reads have been answered (the model's own: log 10). -/
  draws : Nat
  deriving DecidableEq, Repr

/-- Why the machine stops. -/
inductive Fault where
  /-- Raised by a CORE move when BUSY = 1 and the latch or the phase register holds no command in progress (OPL none,
  or PH at a phase the opcode does not have). No rule gives such a state a completion, and no run from reset reaches
  one (log 16). Safe: the model stops where nothing is specified. -/
  | sequencerLost
  deriving DecidableEq, Repr

/-- Why the model gives an instruction no meaning. -/
inductive Refusal where
  /-- Raised only by an arm of exec whose instruction has no meaning yet; none has. Safe. -/
  | notModelled (mnemonic : String)
  deriving DecidableEq, Repr

/-- The working registers at reset: unspecified and never read before written (R39); zero by log 8. -/
def Lane.reset : Lane := { l := 0, r := 0, ka := 0, kb := 0 }

/-- The machine right after reset (70_reset_and_hazards.md R270, 10_state.md R44). NWL, PIN, KIN, TIN are zero by
log 7, the working registers by log 8, RES lists nothing by log 9. -/
def State.reset : State where
  din := 0x00
  key := 0x000
  tgt := 0x00
  dout := 0x00
  subkey := 0x0000
  rcount := 0
  res := []
  busy := false
  done := false
  err := false
  ecode := 0
  doneie := false
  errie := false
  opl := none
  nwl := 0
  pin := 0
  kin := 0
  tin := 0
  ph := .idle
  lane := Lane.reset
  workers := []
  mergePos := 0
  inputs := []
  resp := none
  draws := 0

end Sys2Proof.Machine
end

