-- ==== Sys2Proof/Machine/Flags.lean ====
section
/-! DEFINITION. The status bits: what sets and clears STATUS.BUSY, DONE, ERR, ECODE and IRQEN (10_state.md R28 to
R32), the words they read as (20_memory.md R56), and the interrupt line (60_exceptions.md R237). -/

namespace Sys2Proof.Machine

/-- The code of a command error (60_exceptions.md R231). -/
def ecodeOf : CmdError → BitVec 3
  | .illegalCmd => 1#3
  | .badArg => 2#3
  | .busyWrite => 3#3

/-- Acceptance of a command: DONE <- 0, BUSY <- 1 (30_encoding.md R86). -/
def flagsAccept (s : State) : State := { s with done := false, busy := true }

/-- Completion of a command: BUSY <- 0, DONE <- 1 (20_memory.md R63). -/
def flagsComplete (s : State) : State := { s with busy := false, done := true }

/-- A command error: ERR <- 1, and ECODE takes the code only when ERR was 0 (60_exceptions.md R233). -/
def flagsError (code : CmdError) (s : State) : State :=
  { s with err := true, ecode := if s.err then s.ecode else ecodeOf code }

/-- A write of STATUS: bit 1 clears DONE, bit 2 clears ERR and ECODE, every other bit is ignored (R29 to R31, R58). -/
def flagsWriteStatus (w : BusWord) (s : State) : State :=
  { s with
    done := s.done && !w.getLsbD 1
    err := s.err && !w.getLsbD 2
    ecode := if w.getLsbD 2 then 0#3 else s.ecode }

/-- A write of IRQEN: bits 0 and 1 are taken, the others ignored (R32, R58). -/
def flagsWriteIrqen (w : BusWord) (s : State) : State :=
  { s with doneie := w.getLsbD 0, errie := w.getLsbD 1 }

/-- STATUS as it reads: ECODE [6:4], ERR [2], DONE [1], BUSY [0], the rest 0 (R56). -/
def statusWord (s : State) : BusWord :=
  (s.ecode ++ 0#1 ++ BitVec.ofBool s.err ++ BitVec.ofBool s.done ++ BitVec.ofBool s.busy).setWidth 32

/-- IRQEN as it reads: ERRIE [1], DONEIE [0], the rest 0 (R56). -/
def irqenWord (s : State) : BusWord := (BitVec.ofBool s.errie ++ BitVec.ofBool s.doneie).setWidth 32

/-- The interrupt output (60_exceptions.md R237), a function of the state with no storage of its own. -/
def irq (s : State) : Bool := (s.done && s.doneie) || (s.err && s.errie)

end Sys2Proof.Machine
end

