-- ==== Sys2Proof/Machine/Operands.lean ====
section
/-! DEFINITION. The operands of a command (30_encoding.md R83, R84; 10_state.md R37; 43_key_search.md R191): the
snapshots taken at acceptance, the worker count, and the conversion of a candidate integer to a key. -/

namespace Sys2Proof.Machine

/-- IntToKey(i) = seq_10(i) (R191). -/
def intToKey (i : Nat) : Key := BitVec.ofNat 10 i

/-- The snapshots of the access that accepts a command (R37, R86). -/
def snapshot (s : State) : State := { s with pin := s.din, kin := s.key, tin := s.tgt }

/-- The block operand of a running command: plaintext of ENCRYPT and SEARCH, ciphertext of DECRYPT (R84). -/
def blockOperand (s : State) : Block := s.pin

/-- The key operand of a running ENCRYPT, DECRYPT or KEYSCHED (R84). -/
def keyOperand (s : State) : Key := s.kin

/-- The known ciphertext of a running SEARCH (R84). -/
def targetOperand (s : State) : Block := s.tin

/-- The worker count of a running SEARCH (R37, R83). -/
def workerCount (s : State) : Nat := s.nwl.toNat

end Sys2Proof.Machine
end

