-- ==== Sys2Proof/Machine/Ops.lean ====
section
/-! DEFINITION. The named operations over the register window (20_memory.md): the register map, the access check,
register reads and writes; recording a command error and its return (60_exceptions.md R233, R240); accepting and
completing a command (30_encoding.md R86, 20_memory.md R63); and the reset event (70_reset_and_hazards.md R270). -/

namespace Sys2Proof.Machine

/-- The registers of the map (20_memory.md R52). -/
inductive Reg where
  | cmd
  | status
  | irqen
  | id
  | din
  | key
  | tgt
  | dout
  | subkey
  | rcount
  | res (n : Nat)
  deriving DecidableEq, Repr

/-- The register whose word starts at an aligned offset (R52); none in the reserved range 0x028 to 0xFFC. -/
def regAt (off : Offset) : Option Reg :=
  if 0x1000 ≤ off.toNat then some (.res ((off.toNat - 0x1000) / 4))
  else
    match off.toNat with
    | 0x000 => some .cmd
    | 0x004 => some .status
    | 0x008 => some .irqen
    | 0x00C => some .id
    | 0x010 => some .din
    | 0x014 => some .key
    | 0x018 => some .tgt
    | 0x01C => some .dout
    | 0x020 => some .subkey
    | 0x024 => some .rcount
    | _ => none

/-- The access column of the map (R52): which directions a register allows. CMD is write-only; ID, DOUT, SUBKEY,
RCOUNT and RES are read-only. -/
def Reg.allows : Reg → Dir → Bool
  | .cmd, .read => false
  | .cmd, .write => true
  | .status, _ => true
  | .irqen, _ => true
  | .id, .read => true
  | .id, .write => false
  | .din, _ => true
  | .key, _ => true
  | .tgt, _ => true
  | .dout, .read => true
  | .dout, .write => false
  | .subkey, .read => true
  | .subkey, .write => false
  | .rcount, .read => true
  | .rcount, .write => false
  | .res _, .read => true
  | .res _, .write => false

/-- The access check (R54): size and alignment, then the unmapped range, then the direction. The register the access
reaches, or none for a BusError. -/
def checkAccess (dir : Dir) (off : Offset) (size : Size) : Option Reg :=
  if size ≠ .word ∨ off.toNat % 4 ≠ 0 then none
  else
    match regAt off with
    | none => none
    | some reg => if reg.allows dir then some reg else none

/-- A SEARCH is in progress: RCOUNT and RES are then unspecified to reads (70_reset_and_hazards.md R275). -/
def searching (s : State) : Bool := s.busy && decide (s.opl = some .search)

/-- RES[n] where it has a specified value: no SEARCH in progress and n below RCOUNT (R56, R276). -/
def resValue (n : Nat) (s : State) : Option Key :=
  if searching s ∨ s.rcount.toNat ≤ n then none else s.res[n]?

/-- What a register reads as (R56), zero-extended to the bus word; none where R56 says "any value". CMD has no value
to read and no read of it passes the check. -/
def regValue : Reg → State → Option BusWord
  | .cmd, _ => none
  | .status, s => some (statusWord s)
  | .irqen, s => some (irqenWord s)
  | .id, _ => some 0x53444553#32
  | .din, s => some (s.din.setWidth 32)
  | .key, s => some (s.key.setWidth 32)
  | .tgt, s => some (s.tgt.setWidth 32)
  | .dout, s => some (s.dout.setWidth 32)
  | .subkey, s => some (s.subkey.setWidth 32)
  | .rcount, s => if searching s then none else some (s.rcount.setWidth 32)
  | .res n, s => (resValue n s).map fun k => k.setWidth 32

/-- The k-th "any value" of a register: 11 bits for RCOUNT, 10 for a RES entry (R56, log 10). -/
def anyValue : Reg → Nat → BusWord
  | .rcount, k => (Config.anyCount k).setWidth 32
  | _, k => (Config.anyKey k).setWidth 32

/-- The response of the access just made. -/
def respond (r : Response) (s : State) : State := { s with resp := some r }

/-- A read that passed the check (R56, R57): the response carries the register's value, or a fresh draw. -/
def readReg (reg : Reg) (s : State) : State :=
  match regValue reg s with
  | some v => respond (.data v) s
  | none => respond (.data (anyValue reg s.draws)) { s with draws := s.draws + 1 }

/-- Recording a command error (60_exceptions.md R233): this hardware's only exception entry. Nothing but ERR and ECODE
changes; the offending write is dropped. -/
def raiseCmdError (code : CmdError) (s : State) : State := flagsError code s

/-- The return from an error or a completion: the write-1-to-clear of STATUS (60_exceptions.md R240). -/
def clearStatus (w : BusWord) (s : State) : State := flagsWriteStatus w s

/-- A write that only an idle core takes; while BUSY it is dropped and records BUSY_WRITE (R58, R86, R274). -/
def whenIdle (s : State) (f : State → State) : State :=
  if s.busy then raiseCmdError .busyWrite s else f s

/-- DIN <- wdata[7:0] (10_state.md R35, R58). -/
def writeDin (w : BusWord) (s : State) : State := whenIdle s fun s => { s with din := w.extractLsb' 0 8 }

/-- KEY <- wdata[9:0] (R35, R58). -/
def writeKey (w : BusWord) (s : State) : State := whenIdle s fun s => { s with key := w.extractLsb' 0 10 }

/-- TGT <- wdata[7:0] (R35, R58). -/
def writeTgt (w : BusWord) (s : State) : State := whenIdle s fun s => { s with tgt := w.extractLsb' 0 8 }

/-- Acceptance (30_encoding.md R86): latch opcode and worker count, snapshot the operands, DONE <- 0, BUSY <- 1. -/
def accept (op : Opcode) (nw : Count) (s : State) : State :=
  flagsAccept (snapshot { s with opl := some op, nwl := nw })

/-- The reset event (70_reset_and_hazards.md R270, R280). The events still to happen and the count of draws are the
model's own and stay (log 20). -/
def resetEvent (s : State) : State := { State.reset with inputs := s.inputs, draws := s.draws }

end Sys2Proof.Machine
end

