-- ==== Sys2Proof/Machine/Primitives.lean ====
section
/-! DEFINITION. The datapath primitives of 40_primitives.md: pure functions over bit sequences. -/

namespace Sys2Proof.Machine

/-- s<j>: the element at position j of a sequence of length n, 1-based, position 1 most significant (00_scope.md R12). -/
def bit {n : Nat} (s : BitVec n) (j : Nat) : Bool := s.getLsbD (n - j)

/-- The sequence of length m whose positions 1 to m are the given elements (R12: val). -/
def ofBits (m : Nat) (bs : List Bool) : BitVec m :=
  BitVec.ofNat m (bs.foldl (fun v b => 2 * v + b.toNat) 0)

/-- Perm(T, s) (R101): output position i is input position T<i>. -/
def perm (m : Nat) (T : List Nat) {n : Nat} (s : BitVec n) : BitVec m := ofBits m (T.map (bit s))

/-- Rol(s, p) (R103): t<i+1> = s<((i + p) mod n) + 1> for i in 0 .. n-1. -/
def rol {n : Nat} (s : BitVec n) (p : Nat) : BitVec n :=
  ofBits n ((List.range n).map fun i => bit s ((i + p) % n + 1))

/-- left(s) of a sequence of length 2h (R105): positions 1 to h. -/
def left (h : Nat) {n : Nat} (s : BitVec n) : BitVec h := s.extractLsb' h h

/-- right(s) of a sequence of length 2h (R105): positions h+1 to 2h. -/
def right (h : Nat) {n : Nat} (s : BitVec n) : BitVec h := s.extractLsb' 0 h

/-- The row of an S-box lookup (R115): 2·h<1> + h<4>. -/
def sboxRow (h : Half) : Nat := 2 * (bit h 1).toNat + (bit h 4).toNat

/-- The column of an S-box lookup (R115): 2·h<2> + h<3>. -/
def sboxCol (h : Half) : Nat := 2 * (bit h 2).toNat + (bit h 3).toNat

/-- S[row][col] (R116); the entry of a place a matrix lacks is never asked for in a valid table (R102). -/
def sboxEntry (S : List (List Nat)) (row col : Nat) : Nat := (S.getD row []).getD col 0

/-- SLook(S, h) (R116): the entry as 2 bits, v div 2 first, then v mod 2. -/
def sLook (S : List (List Nat)) (h : Half) : BitVec 2 :=
  BitVec.ofNat 2 (sboxEntry S (sboxRow h) (sboxCol h))

/-- Sub(x) (R117): S0 on the first half, S1 on the second. -/
def sub (T : Tables) (x : BitVec 8) : Half := sLook T.s0 (left 4 x) ++ sLook T.s1 (right 4 x)

/-- F(r, k) (R118): expand, xor with the subkey, substitute, permute. -/
def roundF (T : Tables) (r : Half) (k : Subkey) : Half := perm 4 T.p4 (sub T (perm 8 T.ep r ^^^ k))

end Sys2Proof.Machine
end

