-- ==== Sys2Proof/Machine/Tables.lean ====
section
/-! DEFINITION. The constant tables (40_primitives.md R106 to R114), their contents from general knowledge as the
spec gives them (log 12), and the check a table record must pass (R102). -/

namespace Sys2Proof.Machine

/-- A choice between the two variants, made only when the value is asked for. -/
def pick (v : SboxVariant) (a b : Nat) : Nat :=
  match v with
  | .A => a
  | .B => b

/-- S0 (R113): the variants differ at row 3, column 2 only. -/
def tableS0 (v : SboxVariant) : List (List Nat) :=
  [[1, 0, 3, 2],
   [3, 2, 1, 0],
   [0, 2, 1, 3],
   [3, 1, pick v 0 3, 2]]

/-- S1 (R114): the variants differ at [1][1], [1][3] and [2][3]. -/
def tableS1 (v : SboxVariant) : List (List Nat) :=
  [[0, 1, 2, 3],
   [2, pick v 3 0, 1, pick v 0 3],
   [3, 0, 1, pick v 2 0],
   [2, 1, 0, 3]]

/-- The tables of R107 to R114. -/
def tablesOf (v : SboxVariant) : Tables where
  p10 := [3, 5, 2, 7, 4, 10, 1, 9, 8, 6]
  p8 := [6, 3, 7, 4, 8, 5, 10, 9]
  ip := [2, 6, 3, 1, 4, 8, 5, 7]
  ipInv := [4, 1, 3, 5, 7, 2, 8, 6]
  ep := [4, 1, 2, 3, 2, 3, 4, 1]
  p4 := [2, 4, 3, 1]
  s0 := tableS0 v
  s1 := tableS1 v

/-- Every entry of a permutation table is a 1-based position of an input of length n (R102). -/
def validEntries (n : Nat) (T : List Nat) : Bool := T.all fun j => decide (1 ≤ j) && decide (j ≤ n)

/-- The table names each position 1 to n once. -/
def isPermutation (n : Nat) (T : List Nat) : Bool :=
  validEntries n T && decide (T.length = n) && decide T.Nodup

/-- A substitution table: 4 rows of 4 values in 0 to 3. -/
def isSbox (S : List (List Nat)) : Bool :=
  decide (S.length = 4) && S.all fun row => decide (row.length = 4) && row.all fun x => decide (x ≤ 3)

/-- Perm(IPinv, Perm(IP, s)) = s for all 256 s (R106). -/
def undoes (ipInv ip : List Nat) : Bool :=
  (List.range 256).all fun x => perm 8 ipInv (perm 8 ip (BitVec.ofNat 8 x)) == BitVec.ofNat 8 x

/-- The constraints of R106. A record that fails them is refused before any run (R102, 93 I5). -/
def tablesWf (T : Tables) : Bool :=
  isPermutation 10 T.p10 &&
  (validEntries 10 T.p8 && decide (T.p8.length = 8) && decide T.p8.Nodup) &&
  isPermutation 8 T.ip &&
  (validEntries 8 T.ipInv && decide (T.ipInv.length = 8) && undoes T.ipInv T.ip) &&
  (validEntries 4 T.ep && decide (T.ep.length = 8) && [1, 2, 3, 4].all fun j => T.ep.contains j) &&
  isPermutation 4 T.p4 &&
  isSbox T.s0 && isSbox T.s1

/-- The tables of this core: those of its variant, fixed for its life (R119, 10_state.md R42). -/
def coreTables : Tables := tablesOf Config.sboxVariant

end Sys2Proof.Machine
end

