-- ==== Sys2Proof/Machine/KeySchedule.lean ====
section
/-! DEFINITION. The key schedule and the KEYSCHED command (41_key_schedule.md). -/

namespace Sys2Proof.Machine

/-- Both 5-bit halves of a 10-bit sequence rotated left by 1 (R140 steps 3 and 4, R141). -/
def rotateHalves (x : BitVec 10) : BitVec 10 := rol (left 5 x) 1 ++ rol (right 5 x) 1

/-- KeySchedule(K) (R140): (k1, k2). The second rotation acts on the halves already rotated once (R141). -/
def keySchedule (T : Tables) (k : Key) : Subkey × Subkey :=
  let p : BitVec 10 := perm 10 T.p10 k
  let once := rotateHalves p
  let twice := rotateHalves once
  (perm 8 T.p8 once, perm 8 T.p8 twice)

/-- KEYSCHED written to CMD (R143 accept, 30_encoding.md R86): PH starts at KS. -/
def execKeysched (s : State) : Host.Outcome State Fault Refusal :=
  .next (whenIdle s fun s => { accept .keysched 0 s with ph := .ks })

/-- The completion of KEYSCHED (R143 complete): SUBKEY.K1 <- k1, SUBKEY.K2 <- k2, made in the phase KS (log 5). -/
def finishKeysched (s : State) : State :=
  let ks := keySchedule coreTables (keyOperand s)
  flagsComplete { s with subkey := ks.2 ++ ks.1, ph := .idle }

/-- One phase of a running KEYSCHED; KS is its only one. -/
def phaseKeysched (s : State) : Host.Outcome State Fault Refusal :=
  match s.ph with
  | .ks => .next (finishKeysched s)
  | .idle => .fault .sequencerLost
  | .ip => .fault .sequencerLost
  | .r1 => .fault .sequencerLost
  | .sw => .fault .sequencerLost
  | .r2 => .fault .sequencerLost
  | .fp => .fault .sequencerLost

/-- The atomic completion of a running KEYSCHED (70_reset_and_hazards.md R278): its one phase. -/
def completeKeysched (s : State) : Host.Outcome State Fault Refusal := phaseKeysched s

end Sys2Proof.Machine
end

