-- ==== Sys2Proof/Machine/Cipher.lean ====
section
/-! DEFINITION. The cipher engine and the ENCRYPT and DECRYPT commands (42_cipher.md). -/

namespace Sys2Proof.Machine

/-- The network of R160 and R161 with ka the subkey of round 1 and kb the subkey of round 2. -/
def feistel (T : Tables) (ka kb : Subkey) (x : Block) : Block :=
  let ip : Block := perm 8 T.ip x
  let l0 := left 4 ip
  let r0 := right 4 ip
  let l1 := l0 ^^^ roundF T r0 ka
  let r1 := r0
  let l2 := r1
  let r2 := l1
  let l3 := l2 ^^^ roundF T r2 kb
  let r3 := r2
  perm 8 T.ipInv (l3 ++ r3)

/-- Encrypt(P, K) (R160). -/
def encrypt (T : Tables) (p : Block) (k : Key) : Block :=
  let ks := keySchedule T k
  feistel T ks.1 ks.2 p

/-- Decrypt(C, K) (R161): round 1 uses k2, round 2 uses k1. -/
def decrypt (T : Tables) (c : Block) (k : Key) : Block :=
  let ks := keySchedule T k
  feistel T ks.2 ks.1 c

/-- Which way a block runs through the engine. -/
inductive Way where
  | encrypting
  | decrypting
  deriving DecidableEq, Repr

/-- The subkeys of round 1 and round 2 (R162, phase KS): (k1, k2) for ENCRYPT, (k2, k1) for DECRYPT. -/
def roundKeys (T : Tables) (way : Way) (k : Key) : Subkey × Subkey :=
  let ks := keySchedule T k
  match way with
  | .encrypting => (ks.1, ks.2)
  | .decrypting => (ks.2, ks.1)

/-- Transfer of phase KS on the working registers (R162). -/
def laneKS (T : Tables) (way : Way) (k : Key) (d : Lane) : Lane :=
  { d with ka := (roundKeys T way k).1, kb := (roundKeys T way k).2 }

/-- Transfer of phase IP (R162): L ‖ R <- Perm(IP, x). -/
def laneIP (T : Tables) (x : Block) (d : Lane) : Lane :=
  let ip : Block := perm 8 T.ip x
  { d with l := left 4 ip, r := right 4 ip }

/-- Transfer of phase R1 (R162): L <- L xor F(R, KA). -/
def laneR1 (T : Tables) (d : Lane) : Lane := { d with l := d.l ^^^ roundF T d.r d.ka }

/-- Transfer of phase SW (R162): (L, R) <- (R, L). -/
def laneSW (d : Lane) : Lane := { d with l := d.r, r := d.l }

/-- Transfer of phase R2 (R162): L <- L xor F(R, KB). -/
def laneR2 (T : Tables) (d : Lane) : Lane := { d with l := d.l ^^^ roundF T d.r d.kb }

/-- What phase FP hands out (R162): Perm(IPinv, L ‖ R). -/
def laneFP (T : Tables) (d : Lane) : Block := perm 8 T.ipInv (d.l ++ d.r)

/-- A whole block through a lane's working registers: phases KS to R2 (R162, 43_key_search.md R202). -/
def laneRun (T : Tables) (way : Way) (k : Key) (x : Block) (d : Lane) : Lane :=
  laneR2 T (laneSW (laneR1 T (laneIP T x (laneKS T way k d))))

/-- ENCRYPT written to CMD (R163 accept, 30_encoding.md R86): PH starts at KS. -/
def execEncrypt (s : State) : Host.Outcome State Fault Refusal :=
  .next (whenIdle s fun s => { accept .encrypt 0 s with ph := .ks })

/-- DECRYPT written to CMD (R164 accept, 30_encoding.md R86): PH starts at KS. -/
def execDecrypt (s : State) : Host.Outcome State Fault Refusal :=
  .next (whenIdle s fun s => { accept .decrypt 0 s with ph := .ks })

/-- Phase KS of the engine (R162). -/
def phaseKS (way : Way) (s : State) : State :=
  { s with lane := laneKS coreTables way (keyOperand s) s.lane, ph := .ip }

/-- Phase IP of the engine (R162). -/
def phaseIP (s : State) : State := { s with lane := laneIP coreTables (blockOperand s) s.lane, ph := .r1 }

/-- Phase R1 of the engine (R162). -/
def phaseR1 (s : State) : State := { s with lane := laneR1 coreTables s.lane, ph := .sw }

/-- Phase SW of the engine (R162). -/
def phaseSW (s : State) : State := { s with lane := laneSW s.lane, ph := .r2 }

/-- Phase R2 of the engine (R162). -/
def phaseR2 (s : State) : State := { s with lane := laneR2 coreTables s.lane, ph := .fp }

/-- Phase FP of the engine (R162): DOUT is written, BUSY <- 0, DONE <- 1, PH <- IDLE. -/
def phaseFP (s : State) : State :=
  flagsComplete { s with dout := laneFP coreTables s.lane, ph := .idle }

/-- One phase of a running ENCRYPT or DECRYPT (R162). -/
def phaseCipher (way : Way) (s : State) : Host.Outcome State Fault Refusal :=
  match s.ph with
  | .idle => .fault .sequencerLost
  | .ks => .next (phaseKS way s)
  | .ip => .next (phaseIP s)
  | .r1 => .next (phaseR1 s)
  | .sw => .next (phaseSW s)
  | .r2 => .next (phaseR2 s)
  | .fp => .next (phaseFP s)

/-- The phases that are left, in the fixed order of R162, as one atomic step (70_reset_and_hazards.md R278). -/
def completeCipher (way : Way) (s : State) : Host.Outcome State Fault Refusal :=
  match s.ph with
  | .idle => .fault .sequencerLost
  | .ks => .next (phaseFP (phaseR2 (phaseSW (phaseR1 (phaseIP (phaseKS way s))))))
  | .ip => .next (phaseFP (phaseR2 (phaseSW (phaseR1 (phaseIP s)))))
  | .r1 => .next (phaseFP (phaseR2 (phaseSW (phaseR1 s))))
  | .sw => .next (phaseFP (phaseR2 (phaseSW s)))
  | .r2 => .next (phaseFP (phaseR2 s))
  | .fp => .next (phaseFP s)

end Sys2Proof.Machine
end

