-- ==== Sys2Proof/Machine/Search.lean ====
section
/-! DEFINITION. The key-search accelerator and the SEARCH command (43_key_search.md). -/

namespace Sys2Proof.Machine

/-- Whether candidate i maps the known plaintext to the known ciphertext (R190, R194). -/
def isMatch (T : Tables) (p c : Block) (i : Nat) : Bool := encrypt T p (intToKey i) == c

/-- The matching candidates of [lo, hi), ascending, as keys. -/
def matchesIn (T : Tables) (p c : Block) (lo hi : Nat) : List Key :=
  ((List.range' lo (hi - lo)).filter (isMatch T p c)).map intToKey

/-- SearchKeys(P, C, N) (R190); its result does not depend on N (R197), which is therefore no argument. -/
def searchKeys (T : Tables) (p c : Block) : List Key := matchesIn T p c 0 1024

/-- lo_w of worker w among n (R192). -/
def partLo (n w : Nat) : Nat := w * (1024 / n)

/-- hi_w of worker w among n (R192): the last partition absorbs the remainder. -/
def partHi (n w : Nat) : Nat := if w < n - 1 then (w + 1) * (1024 / n) else 1024

/-- Worker w of n at the start of a search (R194, R198): empty buffer, counter at lo_w, not finished. -/
def newWorker (n w : Nat) : Worker where
  lo := partLo n w
  hi := partHi n w
  i := partLo n w
  lb := []
  fin := false
  lane := Lane.reset

/-- The workers 0 to n-1 of a search. -/
def newWorkers (n : Nat) : List Worker := (List.range n).map (newWorker n)

/-- One round of the loop of R194: test candidate i_w on the lane and step i_w by 1, or set fin_w at the end of the
range (log 21). -/
def Worker.advance (T : Tables) (p c : Block) (w : Worker) : Worker :=
  if w.i < w.hi then
    let lane := laneRun T .encrypting (intToKey w.i) p w.lane
    { w with
      i := w.i + 1
      lane := lane
      lb := if laneFP T lane = c then w.lb ++ [intToKey w.i] else w.lb }
  else { w with fin := true }

/-- n rounds of a worker's loop. -/
def Worker.rounds (T : Tables) (p c : Block) : Nat → Worker → Worker
  | 0, w => w
  | n + 1, w => Worker.rounds T p c n (w.advance T p c)

/-- The rest of a worker's loop: every candidate left, then fin_w (R194). -/
def Worker.finish (T : Tables) (p c : Block) (w : Worker) : Worker :=
  Worker.rounds T p c (w.hi - w.i + 1) w

/-- The join barrier (R195): every worker has tested its whole range. -/
def allFin (s : State) : Bool := s.workers.all fun w => w.fin

/-- The worker buffers concatenated in worker order (R196). After the join this is the list of R190, whatever the worker
count (R197). -/
def merged (s : State) : List Key := (s.workers.map fun w => w.lb).flatten

/-- SEARCH n written to CMD (R198 accept, 30_encoding.md R86). While BUSY it records BUSY_WRITE; a worker count out of
range records BAD_ARG (R198 exceptions; the decoder refuses such a word before, log 19). -/
def execSearch (nw : Count) (s : State) : Host.Outcome State Fault Refusal :=
  .next (whenIdle s fun s =>
    if nwLegal nw then { accept .search nw s with workers := newWorkers nw.toNat, mergePos := 0 }
    else raiseCmdError .badArg s)

/-- The publication of a search (R198 complete, 20_memory.md R63): RCOUNT and RES take the merged list, the same for
every worker count (R197); entries past it become unspecified, BUSY <- 0, DONE <- 1; the search state is discarded
(10_state.md R43, log 6). -/
def finishSearch (s : State) : State :=
  flagsComplete
    { s with
      rcount := BitVec.ofNat 11 (merged s).length
      res := merged s
      workers := []
      mergePos := 0 }

/-- One round of worker w of a running SEARCH (R194); nothing moves if there is no such worker. -/
def moveWorker (w : Nat) (s : State) : State :=
  { s with workers := s.workers.modify w (Worker.advance coreTables (blockOperand s) (targetOperand s)) }

/-- One step of the aggregator (R195, R196): nothing before the join; then the next buffer is taken; after the last
one the result is published (log 22). -/
def moveMerge (s : State) : State :=
  if allFin s then
    if s.mergePos < s.workers.length then { s with mergePos := s.mergePos + 1 } else finishSearch s
  else s

/-- The atomic completion of a running SEARCH (70_reset_and_hazards.md R278): every worker runs to its end, then the
buffers are merged and published. Nothing ends a search early (R201). -/
def completeSearch (s : State) : Host.Outcome State Fault Refusal :=
  .next (finishSearch
    { s with workers := s.workers.map (Worker.finish coreTables (blockOperand s) (targetOperand s)) })

end Sys2Proof.Machine
end

