-- ==== Sys2Proof/Machine/Bus.lean ====
section
/-! DEFINITION. The bus slave port: host accesses (20_memory.md R51 to R58) and the command port (30_encoding.md R86). -/

namespace Sys2Proof.Machine

/-- A write of CMD that passed the check (R86): BUSY_WRITE while busy, whatever the word; else the decoder's error; else
the command runs. -/
def command (w : BusWord) (s : State) : Host.Outcome State Fault Refusal :=
  if s.busy then .next (raiseCmdError .busyWrite s)
  else
    match decode w with
    | .illegal code => .next (raiseCmdError code s)
    | .accept i => exec i s

/-- A write that passed the check (R58). The registers that allow no write never pass it and are listed for
totality. -/
def writeReg (reg : Reg) (w : BusWord) (s : State) : Host.Outcome State Fault Refusal :=
  match reg with
  | .cmd => command w s
  | .status => .next (clearStatus w s)
  | .irqen => .next (flagsWriteIrqen w s)
  | .din => .next (writeDin w s)
  | .key => .next (writeKey w s)
  | .tgt => .next (writeTgt w s)
  | .id => .next s
  | .dout => .next s
  | .subkey => .next s
  | .rcount => .next s
  | .res _ => .next s

/-- MemRead(off, size) (R51, R55, R56). -/
def memRead (off : Offset) (size : Size) (s : State) : Host.Outcome State Fault Refusal :=
  match checkAccess .read off size with
  | none => .next (respond (.busError off) s)
  | some reg => .next (readReg reg s)

/-- MemWrite(off, size, wdata) (R51, R55, R58). A write that passes the check answers OK, also one that is dropped with
a command error (log 13). -/
def memWrite (off : Offset) (size : Size) (w : BusWord) (s : State) : Host.Outcome State Fault Refusal :=
  match checkAccess .write off size with
  | none => .next (respond (.busError off) s)
  | some reg => writeReg reg w (respond .ok s)

/-- One host access (R62). -/
def hostAccess (a : Access) (s : State) : Host.Outcome State Fault Refusal :=
  match a with
  | .read off size => memRead off size s
  | .write off size w => memWrite off size w s

end Sys2Proof.Machine
end

