-- ==== Sys2Proof/Machine/Engine.lean ====
section
/-! DEFINITION. The moves of the CORE (70_reset_and_hazards.md R278, 42_cipher.md R162, 43_key_search.md R194 to
R196) and what happens next. -/

namespace Sys2Proof.Machine

/-- The completion of the command in the latch as one atomic step (R278). -/
def complete (s : State) : Host.Outcome State Fault Refusal :=
  match s.opl with
  | none => .fault .sequencerLost
  | some .encrypt => completeCipher .encrypting s
  | some .decrypt => completeCipher .decrypting s
  | some .keysched => completeKeysched s
  | some .search => completeSearch s

/-- One phase transfer of the command in the latch (R162); SEARCH does not sequence by PH (10_state.md R40). -/
def movePhase (s : State) : Host.Outcome State Fault Refusal :=
  match s.opl with
  | none => .fault .sequencerLost
  | some .encrypt => phaseCipher .encrypting s
  | some .decrypt => phaseCipher .decrypting s
  | some .keysched => phaseKeysched s
  | some .search => .next s

/-- A CORE move. None is enabled unless BUSY = 1 (R278, R281), and a move the running command does not have is not
enabled either: then nothing changes (log 2). -/
def coreMove (m : CoreMove) (s : State) : Host.Outcome State Fault Refusal :=
  if s.busy then
    match m with
    | .complete => complete s
    | .phase => movePhase s
    | .worker w => .next (if s.opl = some .search then moveWorker w s else s)
    | .merge => .next (if s.opl = some .search then moveMerge s else s)
  else .next s

/-- One event: a host access, a CORE move, or the reset (20_memory.md R62, 70_reset_and_hazards.md R271). -/
def event (e : Event) (s : State) : Host.Outcome State Fault Refusal :=
  match e with
  | .access a => hostAccess a s
  | .core m => coreMove m s
  | .reset => .next (resetEvent s)

/-- No event is listed: an accepted command completes (R278, weak fairness, log 3); an idle core keeps its state (60
R248, 70 R281). -/
def unattended (s : State) : Host.Outcome State Fault Refusal := coreMove .complete s

/-- The bits of a command word on the bus, as the host writes it to CMD (30_encoding.md R88, 20_memory.md R60). -/
def cmdWrite (nbits w : Nat) : Access := .write 0x000 .word (BitVec.ofNat 32 (w % 2 ^ nbits))

end Sys2Proof.Machine
end

