-- ==== Sys2Proof/Machine/Step.lean ====
section
/-! DEFINITION. One step: the next event happens (20_memory.md R62). -/

namespace Sys2Proof.Machine

/-- The next listed event is taken from the list and happens; with none listed the CORE is left to itself. -/
def step (s : State) : Host.Outcome State Fault Refusal :=
  match s.inputs with
  | [] => unattended s
  | e :: rest => event e { s with inputs := rest }

/-- s with the host's write of the word to CMD as its very next event (log 1). -/
def State.withFetchWord (s : State) (nbits w : Nat) : State :=
  { s with inputs := .access (cmdWrite nbits w) :: s.inputs }

end Sys2Proof.Machine
end

