-- ==== Sys2Proof/Machine/HostProgram.lean ====
section
/-! DEFINITION. The host-program forms of 30_encoding.md R89 and R90 as lists of host accesses. The host's own control
flow (the loops WAIT and WAITDONE) is outside the core; a loop is the list of reads it makes (log 17). -/

namespace Sys2Proof.Machine

/-- off(reg): the offset of a register of the map (20_memory.md R52). -/
def Reg.offset : Reg → Offset
  | .cmd => 0x000
  | .status => 0x004
  | .irqen => 0x008
  | .id => 0x00C
  | .din => 0x010
  | .key => 0x014
  | .tgt => 0x018
  | .dout => 0x01C
  | .subkey => 0x020
  | .rcount => 0x024
  | .res n => BitVec.ofNat 13 (0x1000 + 4 * n)

/-- WR reg, imm (R89). -/
def wr (reg : Reg) (imm : BusWord) : Access := .write reg.offset .word imm

/-- RD reg (R89). -/
def rd (reg : Reg) : Access := .read reg.offset .word

/-- RDRES n (R89). -/
def rdres (n : Nat) : Access := rd (.res n)

/-- RD @off and RD.n @off (R89): a read at a raw offset, of a size. -/
def rdAt (off : Offset) (size : Size) : Access := .read off size

/-- WR @off, imm and WR.n @off, imm (R89): a write at a raw offset, of a size. -/
def wrAt (off : Offset) (size : Size) (imm : BusWord) : Access := .write off size imm

/-- The pseudo-instructions ENCRYPT, DECRYPT, KEYSCHED and SEARCH n (R90): the write of the command's word to CMD. -/
def issue (i : Instr) : Access := wr .cmd (encode i)

/-- CLR (R90): clears DONE and ERR, and ECODE with them. -/
def clr : Access := wr .status 0x00000006

/-- WAIT and WAITDONE (R90) that end after n reads of STATUS; n is unspecified. -/
def polls (n : Nat) : List Access := List.replicate n (rd .status)

/-- The condition that ends WAIT (R90): the STATUS word read has bit 0 clear. -/
def waitEnds (status : BusWord) : Bool := !status.getLsbD 0

/-- The condition that ends WAITDONE (R90): the STATUS word read has bit 1 or bit 2 set. -/
def waitdoneEnds (status : BusWord) : Bool := status.getLsbD 1 || status.getLsbD 2

/-- A list of host accesses as events. -/
def accesses (as : List Access) : List Event := as.map .access

end Sys2Proof.Machine
end

