-- ==== Sys2Proof/Safety.lean ====
section
/-! DEFINITION. What a reachable state of SDES-CORE is like, what the host can see of a state, and runs of events: the
terms the statements use. -/

namespace Sys2Proof.Machine

/-- The subkeys of the running command are in KA and KB (42_cipher.md R162, phase KS). -/
def keysLoaded (way : Way) (s : State) : Prop :=
  s.lane.ka = (roundKeys coreTables way s.kin).1 ∧ s.lane.kb = (roundKeys coreTables way s.kin).2

/-- L0 and R0 of the running command (R160). -/
def halves0 (s : State) : Half × Half :=
  (left 4 (perm 8 coreTables.ip s.pin : Block), right 4 (perm 8 coreTables.ip s.pin : Block))

/-- L1 of the running command (R160). -/
def half1 (way : Way) (s : State) : Half :=
  (halves0 s).1 ^^^ roundF coreTables (halves0 s).2 (roundKeys coreTables way s.kin).1

/-- L3 of the running command (R160). -/
def half3 (way : Way) (s : State) : Half :=
  (halves0 s).2 ^^^ roundF coreTables (half1 way s) (roundKeys coreTables way s.kin).2

/-- A running ENCRYPT or DECRYPT is at a phase of R162, and its working registers hold what the phases before it
left there. -/
def cipherInv (way : Way) (s : State) : Prop :=
  match s.ph with
  | .idle => False
  | .ks => True
  | .ip => keysLoaded way s
  | .r1 => keysLoaded way s ∧ s.lane.l = (halves0 s).1 ∧ s.lane.r = (halves0 s).2
  | .sw => keysLoaded way s ∧ s.lane.l = half1 way s ∧ s.lane.r = (halves0 s).2
  | .r2 => keysLoaded way s ∧ s.lane.l = (halves0 s).2 ∧ s.lane.r = half1 way s
  | .fp => keysLoaded way s ∧ s.lane.l = half3 way s ∧ s.lane.r = half1 way s

/-- A worker is inside its range, its buffer lists the matches it has passed, and it is finished only at the end of
its range (43_key_search.md R194). -/
structure workerInv (T : Tables) (p c : Block) (w : Worker) : Prop where
  low : w.lo ≤ w.i
  high : w.i ≤ w.hi
  found : w.lb = matchesIn T p c w.lo w.i
  ended : w.fin = true → w.i = w.hi

/-- A running SEARCH has a legal worker count, its workers own the partition of R192 in order, and the aggregator
has taken nothing before the join (R195). -/
structure searchInv (s : State) : Prop where
  count : nwLegal s.nwl = true
  ranges : s.workers.map (fun w => (w.lo, w.hi)) =
    (List.range (workerCount s)).map fun w => (partLo (workerCount s) w, partHi (workerCount s) w)
  each : ∀ w ∈ s.workers, workerInv coreTables (blockOperand s) (targetOperand s) w
  position : s.mergePos ≤ s.workers.length
  joined : 0 < s.mergePos → allFin s = true

/-- No search is in progress (10_state.md R41). -/
def noSearch (s : State) : Prop := s.workers = [] ∧ s.mergePos = 0

/-- What holds while BUSY = 1, by the opcode in the latch. -/
def runningInv (s : State) : Prop :=
  match s.opl with
  | none => False
  | some .encrypt => cipherInv .encrypting s ∧ noSearch s
  | some .decrypt => cipherInv .decrypting s ∧ noSearch s
  | some .keysched => s.ph = .ks ∧ noSearch s
  | some .search => s.ph = .idle ∧ searchInv s

/-- The invariant of the machine. -/
structure Inv (s : State) : Prop where
  /-- ECODE is 0 exactly when ERR is 0, and never 4 to 7 (10_state.md R31, 60_exceptions.md R231). -/
  code : s.ecode.toNat ≤ 3 ∧ (s.err = false ↔ s.ecode = 0#3)
  /-- BUSY and DONE are never both 1 (30_encoding.md R86, 20_memory.md R63). -/
  busyDone : ¬(s.busy = true ∧ s.done = true)
  /-- An idle core has PH at IDLE and no search in progress (10_state.md R38, R41). -/
  idle : s.busy = false → s.ph = .idle ∧ noSearch s
  /-- A busy core has a command in progress (10_state.md R37). -/
  running : s.busy = true → runningInv s
  /-- RES lists RCOUNT keys, at most 1024, strictly ascending (43_key_search.md R196, R206). -/
  results : s.res.length = s.rcount.toNat ∧ s.res.length ≤ 1024 ∧
    s.res.Pairwise fun a b => a.toNat < b.toNat

/-- The state that the completion of the command in the latch leaves (42_cipher.md R163, R164, 41_key_schedule.md R143,
43_key_search.md R198), given what it leaves in the working registers. -/
def published (s : State) (d : Lane) : State :=
  match s.opl with
  | none => s
  | some .encrypt => flagsComplete { s with dout := encrypt coreTables s.pin s.kin, lane := d, ph := .idle }
  | some .decrypt => flagsComplete { s with dout := decrypt coreTables s.pin s.kin, lane := d, ph := .idle }
  | some .keysched =>
    flagsComplete
      { s with subkey := (keySchedule coreTables s.kin).2 ++ (keySchedule coreTables s.kin).1, ph := .idle }
  | some .search =>
    flagsComplete
      { s with
        rcount := BitVec.ofNat 11 (searchKeys coreTables s.pin s.tin).length
        res := searchKeys coreTables s.pin s.tin
        workers := []
        mergePos := 0 }

/-- Two states that no read of a register and no look at `irq` tells apart: every register has the same specified
value, or is unspecified, in both. -/
def sameToHost (s t : State) : Prop := (∀ reg, regValue reg s = regValue reg t) ∧ irq s = irq t

/-- A run of events in order, each on the state the one before left; it stops at the first fault or refusal. -/
def runEvents : List Event → State → Host.Outcome State Fault Refusal
  | [], s => .next s
  | e :: es, s =>
    match event e s with
    | .next t => runEvents es t
    | .fault r => .fault r
    | .refused r => .refused r

/-- An internal move of the CORE (10_state.md R38 to R41): a phase, a worker's candidate, or a step of the aggregator. -/
def isInternal : CoreMove → Bool
  | .complete => false
  | .phase => true
  | .worker _ => true
  | .merge => true

/-- An event that cannot be a host write or a reset: the CORE moves, or the host reads. -/
def isQuiet : Event → Bool
  | .access (.read _ _) => true
  | .access (.write _ _ _) => false
  | .core _ => true
  | .reset => false

end Sys2Proof.Machine
end

