-- ==== Sys2Proof/Certificates/Slice0/Obligations.lean ====
section
/-! DEFINITION. The statements for the provers. Each docstring names the rule of spec/ the statement formalises, or says
which choice of the model it rests on. -/

open Sys2Proof Sys2Proof.Machine

/-! ## Encoding -/

/-- 30_encoding.md R80 to R83, R85: a word is accepted as a command exactly when the command is well formed and the
word is its encoding; so decoding undoes encoding, and no other word is a command. -/
def Obligations.DecodeAcceptsExactlyEncodings : Prop :=
  ∀ (w : BusWord) (i : Instr), decode w = .accept i ↔ (i.wf = true ∧ encode i = w)

/-- R85, all four refusals and the accepted words, over the numbers the fields stand for. -/
def Obligations.DecodeSortsEveryWord : Prop :=
  ∀ w : BusWord,
    let op := w.toNat % 16
    let rsv0 := w.toNat / 16 % 4096
    let nw := w.toNat / 65536 % 2048
    let rsv1 := w.toNat / 134217728
    decode w =
      if rsv0 ≠ 0 ∨ rsv1 ≠ 0 then .illegal .illegalCmd
      else if op ≠ 1 ∧ op ≠ 2 ∧ op ≠ 3 ∧ op ≠ 4 then .illegal .illegalCmd
      else if op ≠ 4 ∧ nw ≠ 0 then .illegal .illegalCmd
      else if op = 4 ∧ (nw = 0 ∨ 1024 < nw) then .illegal .badArg
      else if op = 1 then .accept .encrypt
      else if op = 2 then .accept .decrypt
      else if op = 3 then .accept .keysched
      else .accept (.search (BitVec.ofNat 11 nw))

/-- R85: "exactly these words are accepted": 1, 2, 3 and (n << 16) | 4 for n in 1 to 1024. -/
def Obligations.AcceptedWordsAreTheListedOnes : Prop :=
  ∀ (w : BusWord) (i : Instr), decode w = .accept i ↔
    (i = .encrypt ∧ w = 0x00000001#32) ∨ (i = .decrypt ∧ w = 0x00000002#32) ∨ (i = .keysched ∧ w = 0x00000003#32) ∨
    ∃ n : Nat, 1 ≤ n ∧ n ≤ 1024 ∧ i = .search (BitVec.ofNat 11 n) ∧ w = (BitVec.ofNat 32 n <<< 16) ||| 0x4#32

/-- R85 and 95_test_vectors.md V60: words written out from the encoding of R80 and R81. -/
def Obligations.WrittenOutWordsDecode : Prop :=
  decode 0b00000000000000000000000000000001#32 = .accept .encrypt ∧
  decode 0b00000000000000000000000000000010#32 = .accept .decrypt ∧
  decode 0b00000000000000000000000000000011#32 = .accept .keysched ∧
  decode 0b00000000000000100000000000000100#32 = .accept (.search 2) ∧
  decode 0b00000100000000000000000000000100#32 = .accept (.search 1024) ∧
  decode 0b10000000000000000000000000000100#32 = .illegal .illegalCmd ∧
  decode 0b00000000000000010000000000000001#32 = .illegal .illegalCmd ∧
  decode 0b00000111111111110000000000000100#32 = .illegal .badArg

/-! ## A step runs the decoded command -/

/-- R86, R65: the write of a command's word to CMD is the execution of that command, in the same access. The list of
events the step takes the access from and the field the response OK stands in are the model's own (logs 1, 2, 14), and
that a command dropped while BUSY answers OK too is the model's reading (log 13). -/
def Obligations.StepRunsTheDecodedCommand : Prop :=
  ∀ (s : State) (w : BusWord) (i : Instr) (rest : List Event),
    s.inputs = .access (.write 0x000 .word w) :: rest → decode w = .accept i →
    step s = exec i { s with inputs := rest, resp := some .ok }

/-- R62, R271, in the model's form: that the total order of R62 is a list of events of which each step takes the next is
the model's choice (logs 1 and 2), not the spec's; with none listed the CORE completes what it runs (the model's form of
R278's fairness, log 3) or, idle, changes nothing. -/
def Obligations.StepTakesTheNextEvent : Prop :=
  (∀ (s : State) (e : Event) (rest : List Event), s.inputs = e :: rest → step s = event e { s with inputs := rest }) ∧
  (∀ s : State, s.inputs = [] → s.busy = false → step s = .next s) ∧
  (∀ s : State, s.inputs = [] → s.busy = true → step s = complete s)

/-! ## The commands: acceptance, completion, frame -/

/-- R163, R86: an idle core accepts ENCRYPT, and its completion writes DOUT, BUSY and DONE. Everything else keeps its
value but the engine's own registers: PH and the working registers; that OPL, NWL and the snapshots keep theirs is the
model's choice (log 5). -/
def Obligations.EncryptIsAcceptedAndCompletes : Prop :=
  ∀ s : State, s.busy = false → ∃ t u,
    exec .encrypt s = .next t ∧
    t = { s with
      opl := some .encrypt, nwl := 0, pin := s.din, kin := s.key, tin := s.tgt, done := false, busy := true, ph := .ks } ∧
    coreMove .complete t = .next u ∧
    u = { t with dout := encrypt coreTables s.din s.key, busy := false, done := true, ph := .idle, lane := u.lane }

/-- R164, R86: the same of DECRYPT; OPL, NWL and the snapshots keep their values by the model's choice (log 5). -/
def Obligations.DecryptIsAcceptedAndCompletes : Prop :=
  ∀ s : State, s.busy = false → ∃ t u,
    exec .decrypt s = .next t ∧
    t = { s with
      opl := some .decrypt, nwl := 0, pin := s.din, kin := s.key, tin := s.tgt, done := false, busy := true, ph := .ks } ∧
    coreMove .complete t = .next u ∧
    u = { t with dout := decrypt coreTables s.din s.key, busy := false, done := true, ph := .idle, lane := u.lane }

/-- R143, R86: an idle core accepts KEYSCHED, and its completion writes SUBKEY.K1, SUBKEY.K2, BUSY and DONE. That it
ends in the phase KS with PH back at IDLE, and that the working registers, OPL, NWL and the snapshots keep their values,
is the model's reading (log 5). -/
def Obligations.KeyschedIsAcceptedAndCompletes : Prop :=
  ∀ s : State, s.busy = false → ∃ t u,
    exec .keysched s = .next t ∧
    t = { s with
      opl := some .keysched, nwl := 0, pin := s.din, kin := s.key, tin := s.tgt, done := false, busy := true, ph := .ks } ∧
    coreMove .complete t = .next u ∧
    u = { t with subkey := u.subkey, busy := false, done := true, ph := .idle } ∧
    u.subkey.extractLsb' 0 8 = (keySchedule coreTables s.key).1 ∧
    u.subkey.extractLsb' 8 8 = (keySchedule coreTables s.key).2

/-- R198, R86, R190: an idle core accepts SEARCH n for every legal n, sets up the workers of R192, and its completion
writes RCOUNT, RES, BUSY and DONE; KEY is not read. The model's choices in it: each worker has lane registers of its own
(log 15) that start at 0 (log 8); the merge position counts buffers taken, so it starts at 0 (log 22); OPL, NWL and the
snapshots keep their values (log 5) and the search state is discarded (log 6) at the end. -/
def Obligations.SearchIsAcceptedAndCompletes : Prop :=
  ∀ (s : State) (nw : Count), s.busy = false → 1 ≤ nw.toNat → nw.toNat ≤ 1024 → ∃ t u,
    exec (.search nw) s = .next t ∧
    t = { s with
      opl := some .search, nwl := nw, pin := s.din, kin := s.key, tin := s.tgt, done := false, busy := true
      workers := newWorkers nw.toNat, mergePos := 0 } ∧
    coreMove .complete t = .next u ∧
    u = { t with
      rcount := BitVec.ofNat 11 (searchKeys coreTables s.din s.tgt).length
      res := searchKeys coreTables s.din s.tgt
      busy := false, done := true, workers := [], mergePos := 0 }

/-- R86, R234 (1): every command written while BUSY = 1 is dropped and records BUSY_WRITE; nothing but ERR and ECODE
changes. -/
def Obligations.CommandsWhileBusyAreDropped : Prop :=
  ∀ (i : Instr) (s : State), s.busy = true →
    exec i s = .next { s with err := true, ecode := if s.err then s.ecode else 3#3 }

/-- R83: a SEARCH with a worker count out of range records BAD_ARG and nothing else changes. -/
def Obligations.SearchCountOutOfRangeIsDropped : Prop :=
  ∀ (nw : Count) (s : State), s.busy = false → (nw.toNat = 0 ∨ 1024 < nw.toNat) →
    exec (.search nw) s = .next { s with err := true, ecode := if s.err then s.ecode else 2#3 }

/-- 30_encoding.md R86, clause by clause: a CMD write that passed the access check is dropped with BUSY_WRITE while busy,
dropped with the decoder's error if the word is illegal, and otherwise accepted: the latch, the snapshots, DONE and BUSY
are written, the start of R86 is made, and nothing else changes. The model's choices in it: the workers that start have
lane registers of their own (log 15) at 0 (log 8), and the merge position counts buffers taken, so it starts at 0
(log 22). -/
def Obligations.CmdWriteAcceptsOrDrops : Prop :=
  ∀ (w : BusWord) (s : State),
    (s.busy = true → command w s = .next { s with err := true, ecode := if s.err then s.ecode else 3#3 }) ∧
    (∀ code, s.busy = false → decode w = .illegal code →
      command w s = .next { s with err := true, ecode := if s.err then s.ecode else ecodeOf code }) ∧
    (∀ i, s.busy = false → decode w = .accept i → ∃ t, command w s = .next t ∧
      t = { s with
        opl := some i.opcode, nwl := i.nw, pin := s.din, kin := s.key, tin := s.tgt, done := false, busy := true
        ph := t.ph, workers := t.workers, mergePos := t.mergePos } ∧
      (i.opcode ≠ .search → t.ph = .ks ∧ t.workers = s.workers ∧ t.mergePos = s.mergePos) ∧
      (∀ nw, i = .search nw → t.ph = s.ph ∧ t.workers = newWorkers nw.toNat ∧ t.mergePos = 0))

/-- 60_exceptions.md R234, R233: one code of a CMD write, BUSY_WRITE before ILLEGAL_CMD before BAD_ARG; a dropped
command changes ERR and ECODE only, DONE among the rest (R277). -/
def Obligations.CmdWriteErrorPriority : Prop :=
  ∀ (w : BusWord) (s : State),
    (s.busy = true → command w s = .next { s with err := true, ecode := if s.err then s.ecode else 3#3 }) ∧
    (s.busy = false →
      (w.toNat / 16 % 4096 ≠ 0 ∨ w.toNat / 134217728 ≠ 0 ∨ w.toNat % 16 = 0 ∨ 4 < w.toNat % 16 ∨
        (w.toNat % 16 ≠ 4 ∧ w.toNat / 65536 % 2048 ≠ 0)) →
      command w s = .next { s with err := true, ecode := if s.err then s.ecode else 1#3 }) ∧
    (s.busy = false → w.toNat / 16 % 4096 = 0 → w.toNat / 134217728 = 0 → w.toNat % 16 = 4 →
      (w.toNat / 65536 % 2048 = 0 ∨ 1024 < w.toNat / 65536 % 2048) →
      command w s = .next { s with err := true, ecode := if s.err then s.ecode else 2#3 })

/-- 60_exceptions.md R233, R241: the first error since ERR was 0 is the one ECODE keeps; a later one changes nothing; a
completion while ERR = 1 sets DONE and leaves the error; clearing one of DONE and ERR leaves the other. -/
def Obligations.ErrorsNestAndTheFirstIsKept : Prop :=
  (∀ (c : CmdError) (s : State), s.err = false → raiseCmdError c s = { s with err := true, ecode := ecodeOf c }) ∧
  (∀ (c : CmdError) (s : State), s.err = true → raiseCmdError c s = s) ∧
  (∀ s t : State, Inv s → s.busy = true → coreMove .complete s = .next t →
    t.done = true ∧ t.err = s.err ∧ t.ecode = s.ecode) ∧
  (∀ s : State, (clearStatus 0x00000002#32 s).err = s.err ∧ (clearStatus 0x00000002#32 s).ecode = s.ecode ∧
    (clearStatus 0x00000004#32 s).done = s.done)

/-- 70_reset_and_hazards.md R274, 10_state.md R37: while BUSY = 1 no host access changes anything of the running
command, of the operand registers or of the results; only STATUS, IRQEN, the bus response and the model's count of
draws may change. -/
def Obligations.HostAccessesLeaveTheRunningCommandAlone : Prop :=
  ∀ (a : Access) (s t : State), s.busy = true → hostAccess a s = .next t →
    t = { s with
      done := t.done, err := t.err, ecode := t.ecode, doneie := t.doneie, errie := t.errie
      resp := t.resp, draws := t.draws }

/-! ## The register window -/

/-- 20_memory.md R54: which accesses are refused, over offsets. -/
def Obligations.AccessCheckRefusesExactly : Prop :=
  ∀ (dir : Dir) (off : Offset) (size : Size),
    checkAccess dir off size = none ↔
      size ≠ .word ∨ off.toNat % 4 ≠ 0 ∨ (0x028 ≤ off.toNat ∧ off.toNat ≤ 0xFFC) ∨
      (dir = .read ∧ off.toNat = 0x000) ∨
      (dir = .write ∧ (off.toNat = 0x00C ∨ off.toNat = 0x01C ∨ off.toNat = 0x020 ∨ off.toNat = 0x024 ∨
        0x1000 ≤ off.toNat))

/-- 20_memory.md R55, R54: an access that fails the check answers BusError and changes nothing of the core; only the
bus response (the model's field, log 14) is set. -/
def Obligations.BusErrorChangesNothing : Prop :=
  ∀ (off : Offset) (size : Size) (w : BusWord) (s : State),
    ((size ≠ .word ∨ off.toNat % 4 ≠ 0 ∨ (0x028 ≤ off.toNat ∧ off.toNat ≤ 0xFFC) ∨ off.toNat = 0x000) →
      hostAccess (.read off size) s = .next { s with resp := some (.busError off) }) ∧
    ((size ≠ .word ∨ off.toNat % 4 ≠ 0 ∨ (0x028 ≤ off.toNat ∧ off.toNat ≤ 0xFFC) ∨ off.toNat = 0x00C ∨
        off.toNat = 0x01C ∨ off.toNat = 0x020 ∨ off.toNat = 0x024 ∨ 0x1000 ≤ off.toNat) →
      hostAccess (.write off size w) s = .next { s with resp := some (.busError off) })

/-- 20_memory.md R56: what each register reads as. The RES clause is about states that meet the invariant, where RES
lists RCOUNT entries; the two unspecified cases answer the next free value, whatever it is (log 10). -/
def Obligations.ReadsReturnTheRegisters : Prop :=
  ∀ s : State,
    (∃ v, memRead 0x004 .word s = .next { s with resp := some (.data v) } ∧
      v.toNat = s.ecode.toNat * 16 + s.err.toNat * 4 + s.done.toNat * 2 + s.busy.toNat) ∧
    (∃ v, memRead 0x008 .word s = .next { s with resp := some (.data v) } ∧
      v.toNat = s.errie.toNat * 2 + s.doneie.toNat) ∧
    memRead 0x00C .word s = .next { s with resp := some (.data 0x53444553#32) } ∧
    memRead 0x010 .word s = .next { s with resp := some (.data (s.din.setWidth 32)) } ∧
    memRead 0x014 .word s = .next { s with resp := some (.data (s.key.setWidth 32)) } ∧
    memRead 0x018 .word s = .next { s with resp := some (.data (s.tgt.setWidth 32)) } ∧
    memRead 0x01C .word s = .next { s with resp := some (.data (s.dout.setWidth 32)) } ∧
    memRead 0x020 .word s = .next { s with resp := some (.data (s.subkey.setWidth 32)) } ∧
    (¬(s.busy = true ∧ s.opl = some .search) →
      memRead 0x024 .word s = .next { s with resp := some (.data (s.rcount.setWidth 32)) }) ∧
    (s.busy = true ∧ s.opl = some .search →
      memRead 0x024 .word s =
        .next { s with resp := some (.data ((Config.anyCount s.draws).setWidth 32)), draws := s.draws + 1 }) ∧
    (∀ n : Nat, n < 1024 →
      (Inv s → ¬(s.busy = true ∧ s.opl = some .search) → n < s.rcount.toNat →
        ∃ k, s.res[n]? = some k ∧
          memRead (BitVec.ofNat 13 (0x1000 + 4 * n)) .word s = .next { s with resp := some (.data (k.setWidth 32)) }) ∧
      ((s.busy = true ∧ s.opl = some .search) ∨ s.rcount.toNat ≤ n →
        memRead (BitVec.ofNat 13 (0x1000 + 4 * n)) .word s =
          .next { s with resp := some (.data ((Config.anyKey s.draws).setWidth 32)), draws := s.draws + 1 }))

/-- 20_memory.md R57: reads, however many and of whatever offsets and sizes, change no state (only the bus response and
the model's count of draws), and after them every register that has a specified value still reads as that value. -/
def Obligations.ReadsHaveNoSideEffect : Prop :=
  ∀ (rs : List (Offset × Size)) (s : State), ∃ t,
    runEvents (rs.map fun r => .access (.read r.1 r.2)) s = .next t ∧
    t = { s with resp := t.resp, draws := t.draws } ∧ ∀ reg, regValue reg t = regValue reg s

/-- 20_memory.md R58: what a write of each register does, idle and busy. That a write dropped with a command error answers
OK too is the model's reading (log 13). -/
def Obligations.WritesFollowTheMap : Prop :=
  ∀ (w : BusWord) (s : State),
    memWrite 0x000 .word w s = command w { s with resp := some .ok } ∧
    memWrite 0x004 .word w s =
      .next { s with
        resp := some .ok
        done := if w.getLsbD 1 then false else s.done
        err := if w.getLsbD 2 then false else s.err
        ecode := if w.getLsbD 2 then 0#3 else s.ecode } ∧
    memWrite 0x008 .word w s = .next { s with resp := some .ok, doneie := w.getLsbD 0, errie := w.getLsbD 1 } ∧
    (s.busy = true → ∀ off : Offset, off = 0x010 ∨ off = 0x014 ∨ off = 0x018 →
      memWrite off .word w s =
        .next { s with resp := some .ok, err := true, ecode := if s.err then s.ecode else 3#3 }) ∧
    (s.busy = false →
      memWrite 0x010 .word w s = .next { s with resp := some .ok, din := w.setWidth 8 } ∧
      memWrite 0x014 .word w s = .next { s with resp := some .ok, key := w.setWidth 10 } ∧
      memWrite 0x018 .word w s = .next { s with resp := some .ok, tgt := w.setWidth 8 })

/-- 10_state.md R35: the bits above a register's field read 0, in every register and every state. -/
def Obligations.ReservedBitsReadZero : Prop :=
  ∀ (s : State) (v : BusWord),
    (regValue .din s = some v → v.toNat < 2 ^ 8) ∧ (regValue .key s = some v → v.toNat < 2 ^ 10) ∧
    (regValue .tgt s = some v → v.toNat < 2 ^ 8) ∧ (regValue .dout s = some v → v.toNat < 2 ^ 8) ∧
    (regValue .subkey s = some v → v.toNat < 2 ^ 16) ∧ (regValue .rcount s = some v → v.toNat < 2 ^ 11) ∧
    (∀ n, regValue (.res n) s = some v → v.toNat < 2 ^ 10) ∧
    (regValue .status s = some v → v.getLsbD 3 = false ∧ v.toNat < 2 ^ 7) ∧ (regValue .irqen s = some v → v.toNat < 2 ^ 2)

/-- 60_exceptions.md R240: the write of STATUS that returns from an error or a completion; nothing but DONE, ERR and
ECODE changes, and clearing one of the two leaves the other. -/
def Obligations.StatusWriteIsTheReturn : Prop :=
  ∀ s : State,
    clearStatus 0x00000002#32 s = { s with done := false } ∧
    clearStatus 0x00000004#32 s = { s with err := false, ecode := 0#3 } ∧
    clearStatus 0x00000006#32 s = { s with done := false, err := false, ecode := 0#3 } ∧
    hostAccess clr s = .next { s with resp := some .ok, done := false, err := false, ecode := 0#3 }

/-- 60_exceptions.md R237: the level of irq, and when it falls. -/
def Obligations.InterruptLineLevel : Prop :=
  (∀ s : State, irq s = true ↔ (s.done = true ∧ s.doneie = true) ∨ (s.err = true ∧ s.errie = true)) ∧
  (∀ s : State, irq (clearStatus 0x00000006#32 s) = false) ∧
  (∀ s : State, irq (flagsWriteIrqen 0#32 s) = false) ∧
  (∀ s : State, irq (resetEvent s) = false) ∧
  (∀ (i : Instr) (s t : State), s.busy = false → i.wf = true → exec i s = .next t → irq t = (s.err && s.errie))

/-! ## Reset -/

/-- 70_reset_and_hazards.md R270, R280: the reset event in any state, a command running or not; the core is then idle
and takes the first command. -/
def Obligations.ResetPutsEveryRegisterBack : Prop :=
  ∀ s : State, ∃ t,
    event .reset s = .next t ∧
    t.din = 0x00#8 ∧ t.key = 0x000#10 ∧ t.tgt = 0x00#8 ∧ t.dout = 0x00#8 ∧ t.subkey = 0x0000#16 ∧ t.rcount = 0#11 ∧
    t.busy = false ∧ t.done = false ∧ t.err = false ∧ t.ecode = 0#3 ∧ t.doneie = false ∧ t.errie = false ∧
    t.opl = none ∧ t.ph = .idle ∧ t.workers = [] ∧ t.mergePos = 0 ∧ (∀ n, regValue (.res n) t = none) ∧ irq t = false ∧
    ∀ i : Instr, i.wf = true → ∃ u, exec i t = .next u ∧ u.busy = true ∧ u.opl = some i.opcode

/-- 10_state.md R44: the state after reset has the values of the table's column. -/
def Obligations.ResetStateReadsAsTheTable : Prop :=
  regValue .status State.reset = some 0#32 ∧ regValue .irqen State.reset = some 0#32 ∧
  regValue .id State.reset = some 0x53444553#32 ∧ regValue .din State.reset = some 0#32 ∧
  regValue .key State.reset = some 0#32 ∧ regValue .tgt State.reset = some 0#32 ∧
  regValue .dout State.reset = some 0#32 ∧ regValue .subkey State.reset = some 0#32 ∧
  regValue .rcount State.reset = some 0#32 ∧ (∀ n, regValue (.res n) State.reset = none) ∧
  State.reset.opl = none ∧ State.reset.ph = .idle ∧ State.reset.workers = [] ∧ irq State.reset = false

/-! ## Primitives, key schedule, cipher -/

/-- 40_primitives.md R101: output position i of a permutation is input position T<i>, entries repeated or dropped
included. -/
def Obligations.PermTakesListedPositions : Prop :=
  ∀ (n m : Nat) (T : List Nat) (s : BitVec n) (i j : Nat),
    T.length = m → 1 ≤ i → i ≤ m → T[i - 1]? = some j → bit (perm m T s) i = bit s j

/-- 40_primitives.md R103: rotation, position by position, its corner cases and its examples. -/
def Obligations.RotationLaws : Prop :=
  ∀ (n : Nat) (s : BitVec n),
    (∀ p i, i < n → bit (rol s p) (i + 1) = bit s ((i + p) % n + 1)) ∧
    rol s 0 = s ∧ rol s n = s ∧ rol (rol s 1) 1 = rol s 2 ∧
    rol 0b10000#5 1 = 0b00001#5 ∧ rol 0b01100#5 1 = 0b11000#5

/-- 40_primitives.md R106, R102: the tables of the core (contents: log 12; variant open: log 11) pass the check of a table
record. -/
def Obligations.CoreTablesAreValid : Prop := tablesWf coreTables = true

/-- 40_primitives.md R116, R115: the lookup picks row 2·h<1> + h<4> and column 2·h<2> + h<3>, in every matrix of 4 rows
of 4 values below 4. -/
def Obligations.SboxLookupPicksRowAndColumn : Prop :=
  ∀ (S : List (List Nat)) (h : Half) (row : List Nat) (v : Nat), isSbox S = true →
    S[2 * (bit h 1).toNat + (bit h 4).toNat]? = some row → row[2 * (bit h 2).toNat + (bit h 3).toNat]? = some v →
    (sLook S h).toNat = v

/-- 40_primitives.md R120: with the EP of R111 (log 12) each position of the half-block appears at the two places R120 names,
so the expansion determines it. -/
def Obligations.ExpansionLosesNoBit : Prop :=
  (∀ r : Half,
    let x : BitVec 8 := perm 8 coreTables.ep r
    bit x 2 = bit r 1 ∧ bit x 8 = bit r 1 ∧ bit x 3 = bit r 2 ∧ bit x 5 = bit r 2 ∧
    bit x 4 = bit r 3 ∧ bit x 6 = bit r 3 ∧ bit x 1 = bit r 4 ∧ bit x 7 = bit r 4) ∧
  ∀ r s : Half, (perm 8 coreTables.ep r : BitVec 8) = perm 8 coreTables.ep s → r = s

/-- 41_key_schedule.md R141: for every table record, the net rotation of each half for k2 is 2. -/
def Obligations.NetRotationIsTwo : Prop :=
  ∀ (T : Tables) (k : Key),
    let p : BitVec 10 := perm 10 T.p10 k
    (keySchedule T k).2 = perm 8 T.p8 (rol (left 5 p) 2 ++ rol (right 5 p) 2)

/-- 41_key_schedule.md R144: each subkey bit is one key bit, and two keys have the same subkeys exactly when they are
equal or twins (so exactly 512 subkey pairs exist). It rests on the table contents of the spec's D4 (log 12). -/
def Obligations.SubkeyBitsAndTwinKeys : Prop :=
  (∀ k : Key,
    (List.range 8).map (fun j => bit (keySchedule coreTables k).1 (j + 1)) =
      [bit k 1, bit k 7, bit k 9, bit k 4, bit k 8, bit k 3, bit k 10, bit k 6] ∧
    (List.range 8).map (fun j => bit (keySchedule coreTables k).2 (j + 1)) =
      [bit k 9, bit k 4, bit k 8, bit k 3, bit k 6, bit k 5, bit k 1, bit k 10]) ∧
  ∀ k l : Key, keySchedule coreTables k = keySchedule coreTables l ↔ (l = k ∨ l = k ^^^ 0x100#10)

/-- 42_cipher.md R166: decryption undoes encryption, and encryption decryption, for every block and key and every table
record whose IPinv is the inverse of its IP, whatever its EP, P4, S0 and S1: both S-box variants among them. -/
def Obligations.DecryptUndoesEncrypt : Prop :=
  ∀ (T : Tables) (p : Block) (k : Key), undoes T.ipInv T.ip = true →
    decrypt T (encrypt T p k) k = p ∧ encrypt T (decrypt T p k) k = p

/-- 42_cipher.md R162: from acceptance, the six phases of the engine publish Encrypt or Decrypt of the snapshots, and
no phase before the last changes anything the host can see. That a phase is a move of its own is the model's reading
(log 4), and so is that OPL, NWL and the snapshots keep their values at the end (log 5). -/
def Obligations.PhasesComputeTheCipher : Prop :=
  ∀ (way : Way) (s : State), s.busy = true → s.ph = .ks →
    s.opl = some (match way with | .encrypting => .encrypt | .decrypting => .decrypt) →
    (∀ n, n < 6 → ∃ t, runEvents (List.replicate n (.core .phase)) s = .next t ∧ sameToHost s t) ∧
    ∃ u, runEvents (List.replicate 6 (.core .phase)) s = .next u ∧
      u = { s with
        dout := match way with
          | .encrypting => encrypt coreTables s.pin s.kin
          | .decrypting => decrypt coreTables s.pin s.kin
        busy := false, done := true, ph := .idle, lane := u.lane }

/-! ## Search -/

/-- 43_key_search.md R193: the ranges of R192 are non-empty, contiguous, start at 0, end at 1024, and every candidate
lies in exactly one. -/
def Obligations.PartitionCoversEachCandidateOnce : Prop :=
  ∀ n : Nat, 1 ≤ n → n ≤ 1024 →
    partLo n 0 = 0 ∧ partHi n (n - 1) = 1024 ∧
    (∀ w, w < n → partLo n w < partHi n w) ∧ (∀ w, w + 1 < n → partHi n w = partLo n (w + 1)) ∧
    ∀ i, i < 1024 → ∃ w, (w < n ∧ partLo n w ≤ i ∧ i < partHi n w) ∧
      ∀ v, v < n → partLo n v ≤ i → i < partHi n v → v = w

/-- 43_key_search.md R190, R203, R204: the result of a search holds exactly the matching keys, strictly ascending, so
each once; at most 1024 of them; and the key a pair was made with is among them. -/
def Obligations.SearchFindsExactlyTheMatches : Prop :=
  ∀ (T : Tables) (p c : Block),
    (∀ k : Key, k ∈ searchKeys T p c ↔ encrypt T p k = c) ∧
    (searchKeys T p c).Pairwise (fun a b => a.toNat < b.toNat) ∧ (searchKeys T p c).length ≤ 1024 ∧
    ∀ k : Key, k ∈ searchKeys T p (encrypt T p k)

/-- 43_key_search.md R197, R194, R196: a running search all of whose workers have reached the join holds in its buffers,
merged in worker order, the result of R190, whatever its worker count and whatever order its workers moved in. The
premise is the invariant, stated to be kept by every step in EveryStepKeepsTheInvariant. -/
def Obligations.MergedBuffersAreTheWholeSearch : Prop :=
  ∀ s : State, Inv s → s.busy = true → s.opl = some .search → allFin s = true →
    merged s = searchKeys coreTables s.pin s.tin

/-- 43_key_search.md R205: with the core's tables (log 12) the matches come in twin pairs, so their number is even. -/
def Obligations.MatchesComeInTwinPairs : Prop :=
  ∀ p c : Block,
    (∀ k : Key, k ∈ searchKeys coreTables p c ↔ k ^^^ 0x100#10 ∈ searchKeys coreTables p c) ∧
    (searchKeys coreTables p c).length % 2 = 0

/-! ## The machine as a whole -/

/-- The invariant of Safety.lean is kept by every step, from every state that meets it (10_state.md R31, R37, R38, R41;
42_cipher.md R162; 43_key_search.md R192, R194, R196). The steps include the model's own internal moves and its completion
of a core left alone (logs 2, 3, 4), and the clauses about an idle core, fin_w and the merge position rest on logs 5, 6,
21 and 22. -/
def Obligations.EveryStepKeepsTheInvariant : Prop :=
  ∀ s t : State, Inv s → step s = .next t → Inv t

/-- The state after reset meets the invariant. -/
def Obligations.ResetMeetsTheInvariant : Prop := Inv State.reset

/-- 60_exceptions.md R230, 93 I11: from every state that meets the invariant the machine takes a step; it never faults
and never refuses. -/
def Obligations.InvariantStatesNeverStop : Prop := ∀ s : State, Inv s → ∃ t, step s = .next t

/-- 70_reset_and_hazards.md R278, 20_memory.md R63: from every state of the invariant with BUSY = 1, however far the
internal phases or workers have come (log 4), `complete` is one step that publishes exactly the result of the snapshots.
That OPL, NWL and the snapshots keep their values is the model's choice (log 5). -/
def Obligations.CompletionPublishesTheResult : Prop :=
  ∀ s : State, Inv s → s.busy = true → ∃ t,
    coreMove .complete s = .next t ∧ t.busy = false ∧ t.done = true ∧
    t.dout = (if s.opl = some .encrypt then encrypt coreTables s.pin s.kin
      else if s.opl = some .decrypt then decrypt coreTables s.pin s.kin else s.dout) ∧
    t.subkey = (if s.opl = some .keysched then (keySchedule coreTables s.kin).2 ++ (keySchedule coreTables s.kin).1
      else s.subkey) ∧
    t.res = (if s.opl = some .search then searchKeys coreTables s.pin s.tin else s.res) ∧
    t.rcount.toNat = (if s.opl = some .search then (searchKeys coreTables s.pin s.tin).length else s.rcount.toNat) ∧
    t = { s with
      dout := t.dout, subkey := t.subkey, res := t.res, rcount := t.rcount, busy := false, done := true
      ph := t.ph, lane := t.lane, workers := t.workers, mergePos := t.mergePos }

/-- 70_reset_and_hazards.md R278, R281 say that no CORE step is enabled in an idle core. That a CORE move whose turn comes
then answers the same state is the model's choice for a move that is not enabled (log 2). -/
def Obligations.IdleCoreDoesNotMove : Prop :=
  ∀ (m : CoreMove) (s : State), s.busy = false → coreMove m s = .next s

/-- 42_cipher.md R162, 43_key_search.md R202, 70_reset_and_hazards.md R278: whatever internal moves the CORE makes, in
whatever order, the host sees either nothing of them or the completion, and the completion after them shows the host
the same as the completion before them. The internal moves are the model's own (log 4), and one that is not enabled
changes nothing (log 2). -/
def Obligations.InternalMovesDoNotShow : Prop :=
  ∀ (ms : List CoreMove) (s : State), Inv s → s.busy = true → (∀ m ∈ ms, isInternal m = true) → ∃ t u,
    runEvents (ms.map .core) s = .next t ∧ coreMove .complete s = .next u ∧
    ((t.busy = false ∧ sameToHost t u) ∨
      (t.busy = true ∧ sameToHost s t ∧ ∃ v, coreMove .complete t = .next v ∧ sameToHost u v))

/-- 10_state.md R43: two cores that run the same command on the same snapshots publish the same results, whatever
internal state, registers and earlier results they have. -/
def Obligations.ResultsDependOnSnapshotsOnly : Prop :=
  ∀ s t : State, Inv s → Inv t → s.busy = true → t.busy = true →
    s.opl = t.opl → s.pin = t.pin → s.kin = t.kin → s.tin = t.tin → ∃ u v,
    coreMove .complete s = .next u ∧ coreMove .complete t = .next v ∧
    ((s.opl = some .encrypt ∨ s.opl = some .decrypt) → u.dout = v.dout) ∧
    (s.opl = some .keysched → u.subkey = v.subkey) ∧
    (s.opl = some .search → u.rcount = v.rcount ∧ u.res = v.res)

/-- 10_state.md R21, R22, R23: DIN, KEY and TGT change only in a host write of that register to an idle core, or in a
reset: no command and no CORE move writes them. -/
def Obligations.OperandRegistersChangeOnlyByHostWrites : Prop :=
  ∀ (e : Event) (s t : State), event e s = .next t →
    (t.din ≠ s.din → e = .reset ∨ (s.busy = false ∧ ∃ w, e = .access (.write 0x010 .word w))) ∧
    (t.key ≠ s.key → e = .reset ∨ (s.busy = false ∧ ∃ w, e = .access (.write 0x014 .word w))) ∧
    (t.tgt ≠ s.tgt → e = .reset ∨ (s.busy = false ∧ ∃ w, e = .access (.write 0x018 .word w)))

/-- 10_state.md R24, R25, R26: DOUT, SUBKEY, RCOUNT and RES change only in a CORE move that completes a command that
writes them, or in a reset: no host access writes them. -/
def Obligations.ResultRegistersChangeOnlyAtCompletion : Prop :=
  ∀ (e : Event) (s t : State), event e s = .next t →
    (t.dout ≠ s.dout → e = .reset ∨ ((∃ m, e = .core m) ∧ s.busy = true ∧ t.busy = false ∧
      (s.opl = some .encrypt ∨ s.opl = some .decrypt))) ∧
    (t.subkey ≠ s.subkey → e = .reset ∨ ((∃ m, e = .core m) ∧ s.busy = true ∧ t.busy = false ∧
      s.opl = some .keysched)) ∧
    (t.rcount ≠ s.rcount ∨ t.res ≠ s.res → e = .reset ∨ ((∃ m, e = .core m) ∧ s.busy = true ∧ t.busy = false ∧
      s.opl = some .search))

/-- 70_reset_and_hazards.md R278 with the model's form of fairness (log 3): once its listed events are used up, the
machine has completed whatever it was running. -/
def Obligations.AcceptedCommandsComplete : Prop :=
  ∀ s : State, Inv s → ∃ t, Host.Core.run Sys2Proof.core (s.inputs.length + 1) s = .next t ∧ t.busy = false

/-- 70_reset_and_hazards.md R277, 20_memory.md R63: the host that writes CLR, the operands and ENCRYPT, with reads and
CORE moves anywhere between and after, from any state of the invariant, and then has DONE = 1 and ERR = 0, holds in DOUT
the encryption of its operands: no stale result. -/
def Obligations.PolledEncryptionIsTheHostsOwn : Prop :=
  ∀ (s t : State) (es : List Event) (d k : BusWord), Inv s →
    es.filter (fun e => !isQuiet e) = accesses [clr, wr .din d, wr .key k, issue .encrypt] →
    runEvents es s = .next t → t.err = false → t.done = true →
    t.dout = encrypt coreTables (d.setWidth 8) (k.setWidth 10)

/-- 30_encoding.md R90: the words of the pseudo-instructions. -/
def Obligations.PseudoInstructionWords : Prop :=
  issue .encrypt = .write 0x000 .word 0x00000001#32 ∧ issue .decrypt = .write 0x000 .word 0x00000002#32 ∧
  issue .keysched = .write 0x000 .word 0x00000003#32 ∧ clr = .write 0x004 .word 0x00000006#32 ∧
  ∀ n : Nat, 1 ≤ n → n ≤ 1024 →
    issue (.search (BitVec.ofNat 11 n)) = .write 0x000 .word ((BitVec.ofNat 32 n <<< 16) ||| 0x4#32)
end

