-- ==== Sys2Proof/Laws/Encoding.lean ====
section
/-! SUPPORT. Command words as numbers. -/

namespace Sys2Proof.Machine

/-- The legal worker counts (30_encoding.md R83). -/
theorem nwLegal_iff (nw : Count) : nwLegal nw = true ↔ 1 ≤ nw.toNat ∧ nw.toNat ≤ 1024 := by
  simp [nwLegal]

/-- The fields of a command word as numbers (30_encoding.md R80). -/
theorem fields_toNat (w : BusWord) :
    fieldOP w = BitVec.ofNat 4 (w.toNat % 16) ∧ fieldRSV0 w = BitVec.ofNat 12 (w.toNat / 16 % 4096) ∧
    fieldNW w = BitVec.ofNat 11 (w.toNat / 65536 % 2048) ∧ fieldRSV1 w = BitVec.ofNat 5 (w.toNat / 134217728) := by
  unfold fieldOP fieldRSV0 fieldNW fieldRSV1
  refine ⟨?_, ?_, ?_, ?_⟩ <;> apply BitVec.eq_of_toNat_eq <;> simp [BitVec.extractLsb'_toNat, Nat.shiftRight_eq_div_pow]

/-- The word of a command as a number. -/
theorem encode_toNat (i : Instr) : (encode i).toNat = i.nw.toNat * 65536 + (opcodeValue i.opcode).toNat := by
  have hop : (opcodeValue i.opcode).toNat < 16 := (opcodeValue i.opcode).isLt
  have hn : i.nw.toNat < 2048 := i.nw.isLt
  unfold encode
  simp only [BitVec.toNat_append, BitVec.toNat_ofNat]
  rw [← Nat.shiftLeft_add_eq_or_of_lt (by omega), ← Nat.shiftLeft_add_eq_or_of_lt (by omega),
    ← Nat.shiftLeft_add_eq_or_of_lt (by omega)]
  simp [Nat.shiftLeft_eq]; omega

/-- The decoder accepts well-formed commands only (30_encoding.md R85). -/
theorem decode_wf {w : BusWord} {i : Instr} (h : decode w = .accept i) : i.wf = true := by
  unfold decode withNW at h
  split at h
  · cases h
  · split at h
    · cases h
    · split at h <;> split at h <;> cases h <;> first | rfl | assumption

end Sys2Proof.Machine
end

