-- ==== Sys2Proof/Laws/State.lean ====
section
/-! SUPPORT. One lemma per field and update of State: what each named update leaves in each field. -/

namespace Sys2Proof.Machine

/-! ### respond: An answered access sets the response and nothing else. -/

@[simp] theorem respond_din (r : Response) (s : State) : (respond r s).din = s.din := rfl
@[simp] theorem respond_key (r : Response) (s : State) : (respond r s).key = s.key := rfl
@[simp] theorem respond_tgt (r : Response) (s : State) : (respond r s).tgt = s.tgt := rfl
@[simp] theorem respond_dout (r : Response) (s : State) : (respond r s).dout = s.dout := rfl
@[simp] theorem respond_subkey (r : Response) (s : State) : (respond r s).subkey = s.subkey := rfl
@[simp] theorem respond_rcount (r : Response) (s : State) : (respond r s).rcount = s.rcount := rfl
@[simp] theorem respond_res (r : Response) (s : State) : (respond r s).res = s.res := rfl
@[simp] theorem respond_busy (r : Response) (s : State) : (respond r s).busy = s.busy := rfl
@[simp] theorem respond_done (r : Response) (s : State) : (respond r s).done = s.done := rfl
@[simp] theorem respond_err (r : Response) (s : State) : (respond r s).err = s.err := rfl
@[simp] theorem respond_ecode (r : Response) (s : State) : (respond r s).ecode = s.ecode := rfl
@[simp] theorem respond_doneie (r : Response) (s : State) : (respond r s).doneie = s.doneie := rfl
@[simp] theorem respond_errie (r : Response) (s : State) : (respond r s).errie = s.errie := rfl
@[simp] theorem respond_opl (r : Response) (s : State) : (respond r s).opl = s.opl := rfl
@[simp] theorem respond_nwl (r : Response) (s : State) : (respond r s).nwl = s.nwl := rfl
@[simp] theorem respond_pin (r : Response) (s : State) : (respond r s).pin = s.pin := rfl
@[simp] theorem respond_kin (r : Response) (s : State) : (respond r s).kin = s.kin := rfl
@[simp] theorem respond_tin (r : Response) (s : State) : (respond r s).tin = s.tin := rfl
@[simp] theorem respond_ph (r : Response) (s : State) : (respond r s).ph = s.ph := rfl
@[simp] theorem respond_lane (r : Response) (s : State) : (respond r s).lane = s.lane := rfl
@[simp] theorem respond_workers (r : Response) (s : State) : (respond r s).workers = s.workers := rfl
@[simp] theorem respond_mergePos (r : Response) (s : State) : (respond r s).mergePos = s.mergePos := rfl
@[simp] theorem respond_inputs (r : Response) (s : State) : (respond r s).inputs = s.inputs := rfl
@[simp] theorem respond_resp (r : Response) (s : State) : (respond r s).resp = some r := rfl
@[simp] theorem respond_draws (r : Response) (s : State) : (respond r s).draws = s.draws := rfl

/-! ### raiseCmdError: A recorded command error (60_exceptions.md R233) sets ERR and ECODE and nothing else. -/

@[simp] theorem raiseCmdError_din (c : CmdError) (s : State) : (raiseCmdError c s).din = s.din := rfl
@[simp] theorem raiseCmdError_key (c : CmdError) (s : State) : (raiseCmdError c s).key = s.key := rfl
@[simp] theorem raiseCmdError_tgt (c : CmdError) (s : State) : (raiseCmdError c s).tgt = s.tgt := rfl
@[simp] theorem raiseCmdError_dout (c : CmdError) (s : State) : (raiseCmdError c s).dout = s.dout := rfl
@[simp] theorem raiseCmdError_subkey (c : CmdError) (s : State) : (raiseCmdError c s).subkey = s.subkey := rfl
@[simp] theorem raiseCmdError_rcount (c : CmdError) (s : State) : (raiseCmdError c s).rcount = s.rcount := rfl
@[simp] theorem raiseCmdError_res (c : CmdError) (s : State) : (raiseCmdError c s).res = s.res := rfl
@[simp] theorem raiseCmdError_busy (c : CmdError) (s : State) : (raiseCmdError c s).busy = s.busy := rfl
@[simp] theorem raiseCmdError_done (c : CmdError) (s : State) : (raiseCmdError c s).done = s.done := rfl
@[simp] theorem raiseCmdError_err (c : CmdError) (s : State) : (raiseCmdError c s).err = true := rfl
@[simp] theorem raiseCmdError_ecode (c : CmdError) (s : State) : (raiseCmdError c s).ecode = if s.err then s.ecode else ecodeOf c := rfl
@[simp] theorem raiseCmdError_doneie (c : CmdError) (s : State) : (raiseCmdError c s).doneie = s.doneie := rfl
@[simp] theorem raiseCmdError_errie (c : CmdError) (s : State) : (raiseCmdError c s).errie = s.errie := rfl
@[simp] theorem raiseCmdError_opl (c : CmdError) (s : State) : (raiseCmdError c s).opl = s.opl := rfl
@[simp] theorem raiseCmdError_nwl (c : CmdError) (s : State) : (raiseCmdError c s).nwl = s.nwl := rfl
@[simp] theorem raiseCmdError_pin (c : CmdError) (s : State) : (raiseCmdError c s).pin = s.pin := rfl
@[simp] theorem raiseCmdError_kin (c : CmdError) (s : State) : (raiseCmdError c s).kin = s.kin := rfl
@[simp] theorem raiseCmdError_tin (c : CmdError) (s : State) : (raiseCmdError c s).tin = s.tin := rfl
@[simp] theorem raiseCmdError_ph (c : CmdError) (s : State) : (raiseCmdError c s).ph = s.ph := rfl
@[simp] theorem raiseCmdError_lane (c : CmdError) (s : State) : (raiseCmdError c s).lane = s.lane := rfl
@[simp] theorem raiseCmdError_workers (c : CmdError) (s : State) : (raiseCmdError c s).workers = s.workers := rfl
@[simp] theorem raiseCmdError_mergePos (c : CmdError) (s : State) : (raiseCmdError c s).mergePos = s.mergePos := rfl
@[simp] theorem raiseCmdError_inputs (c : CmdError) (s : State) : (raiseCmdError c s).inputs = s.inputs := rfl
@[simp] theorem raiseCmdError_resp (c : CmdError) (s : State) : (raiseCmdError c s).resp = s.resp := rfl
@[simp] theorem raiseCmdError_draws (c : CmdError) (s : State) : (raiseCmdError c s).draws = s.draws := rfl

/-! ### clearStatus: A write of STATUS (20_memory.md R58) clears DONE, ERR and ECODE and nothing else. -/

@[simp] theorem clearStatus_din (w : BusWord) (s : State) : (clearStatus w s).din = s.din := rfl
@[simp] theorem clearStatus_key (w : BusWord) (s : State) : (clearStatus w s).key = s.key := rfl
@[simp] theorem clearStatus_tgt (w : BusWord) (s : State) : (clearStatus w s).tgt = s.tgt := rfl
@[simp] theorem clearStatus_dout (w : BusWord) (s : State) : (clearStatus w s).dout = s.dout := rfl
@[simp] theorem clearStatus_subkey (w : BusWord) (s : State) : (clearStatus w s).subkey = s.subkey := rfl
@[simp] theorem clearStatus_rcount (w : BusWord) (s : State) : (clearStatus w s).rcount = s.rcount := rfl
@[simp] theorem clearStatus_res (w : BusWord) (s : State) : (clearStatus w s).res = s.res := rfl
@[simp] theorem clearStatus_busy (w : BusWord) (s : State) : (clearStatus w s).busy = s.busy := rfl
@[simp] theorem clearStatus_done (w : BusWord) (s : State) : (clearStatus w s).done = (s.done && !w.getLsbD 1) := rfl
@[simp] theorem clearStatus_err (w : BusWord) (s : State) : (clearStatus w s).err = (s.err && !w.getLsbD 2) := rfl
@[simp] theorem clearStatus_ecode (w : BusWord) (s : State) : (clearStatus w s).ecode = if w.getLsbD 2 then 0#3 else s.ecode := rfl
@[simp] theorem clearStatus_doneie (w : BusWord) (s : State) : (clearStatus w s).doneie = s.doneie := rfl
@[simp] theorem clearStatus_errie (w : BusWord) (s : State) : (clearStatus w s).errie = s.errie := rfl
@[simp] theorem clearStatus_opl (w : BusWord) (s : State) : (clearStatus w s).opl = s.opl := rfl
@[simp] theorem clearStatus_nwl (w : BusWord) (s : State) : (clearStatus w s).nwl = s.nwl := rfl
@[simp] theorem clearStatus_pin (w : BusWord) (s : State) : (clearStatus w s).pin = s.pin := rfl
@[simp] theorem clearStatus_kin (w : BusWord) (s : State) : (clearStatus w s).kin = s.kin := rfl
@[simp] theorem clearStatus_tin (w : BusWord) (s : State) : (clearStatus w s).tin = s.tin := rfl
@[simp] theorem clearStatus_ph (w : BusWord) (s : State) : (clearStatus w s).ph = s.ph := rfl
@[simp] theorem clearStatus_lane (w : BusWord) (s : State) : (clearStatus w s).lane = s.lane := rfl
@[simp] theorem clearStatus_workers (w : BusWord) (s : State) : (clearStatus w s).workers = s.workers := rfl
@[simp] theorem clearStatus_mergePos (w : BusWord) (s : State) : (clearStatus w s).mergePos = s.mergePos := rfl
@[simp] theorem clearStatus_inputs (w : BusWord) (s : State) : (clearStatus w s).inputs = s.inputs := rfl
@[simp] theorem clearStatus_resp (w : BusWord) (s : State) : (clearStatus w s).resp = s.resp := rfl
@[simp] theorem clearStatus_draws (w : BusWord) (s : State) : (clearStatus w s).draws = s.draws := rfl

/-! ### flagsWriteIrqen: A write of IRQEN (20_memory.md R58) sets the two enables and nothing else. -/

@[simp] theorem flagsWriteIrqen_din (w : BusWord) (s : State) : (flagsWriteIrqen w s).din = s.din := rfl
@[simp] theorem flagsWriteIrqen_key (w : BusWord) (s : State) : (flagsWriteIrqen w s).key = s.key := rfl
@[simp] theorem flagsWriteIrqen_tgt (w : BusWord) (s : State) : (flagsWriteIrqen w s).tgt = s.tgt := rfl
@[simp] theorem flagsWriteIrqen_dout (w : BusWord) (s : State) : (flagsWriteIrqen w s).dout = s.dout := rfl
@[simp] theorem flagsWriteIrqen_subkey (w : BusWord) (s : State) : (flagsWriteIrqen w s).subkey = s.subkey := rfl
@[simp] theorem flagsWriteIrqen_rcount (w : BusWord) (s : State) : (flagsWriteIrqen w s).rcount = s.rcount := rfl
@[simp] theorem flagsWriteIrqen_res (w : BusWord) (s : State) : (flagsWriteIrqen w s).res = s.res := rfl
@[simp] theorem flagsWriteIrqen_busy (w : BusWord) (s : State) : (flagsWriteIrqen w s).busy = s.busy := rfl
@[simp] theorem flagsWriteIrqen_done (w : BusWord) (s : State) : (flagsWriteIrqen w s).done = s.done := rfl
@[simp] theorem flagsWriteIrqen_err (w : BusWord) (s : State) : (flagsWriteIrqen w s).err = s.err := rfl
@[simp] theorem flagsWriteIrqen_ecode (w : BusWord) (s : State) : (flagsWriteIrqen w s).ecode = s.ecode := rfl
@[simp] theorem flagsWriteIrqen_doneie (w : BusWord) (s : State) : (flagsWriteIrqen w s).doneie = w.getLsbD 0 := rfl
@[simp] theorem flagsWriteIrqen_errie (w : BusWord) (s : State) : (flagsWriteIrqen w s).errie = w.getLsbD 1 := rfl
@[simp] theorem flagsWriteIrqen_opl (w : BusWord) (s : State) : (flagsWriteIrqen w s).opl = s.opl := rfl
@[simp] theorem flagsWriteIrqen_nwl (w : BusWord) (s : State) : (flagsWriteIrqen w s).nwl = s.nwl := rfl
@[simp] theorem flagsWriteIrqen_pin (w : BusWord) (s : State) : (flagsWriteIrqen w s).pin = s.pin := rfl
@[simp] theorem flagsWriteIrqen_kin (w : BusWord) (s : State) : (flagsWriteIrqen w s).kin = s.kin := rfl
@[simp] theorem flagsWriteIrqen_tin (w : BusWord) (s : State) : (flagsWriteIrqen w s).tin = s.tin := rfl
@[simp] theorem flagsWriteIrqen_ph (w : BusWord) (s : State) : (flagsWriteIrqen w s).ph = s.ph := rfl
@[simp] theorem flagsWriteIrqen_lane (w : BusWord) (s : State) : (flagsWriteIrqen w s).lane = s.lane := rfl
@[simp] theorem flagsWriteIrqen_workers (w : BusWord) (s : State) : (flagsWriteIrqen w s).workers = s.workers := rfl
@[simp] theorem flagsWriteIrqen_mergePos (w : BusWord) (s : State) : (flagsWriteIrqen w s).mergePos = s.mergePos := rfl
@[simp] theorem flagsWriteIrqen_inputs (w : BusWord) (s : State) : (flagsWriteIrqen w s).inputs = s.inputs := rfl
@[simp] theorem flagsWriteIrqen_resp (w : BusWord) (s : State) : (flagsWriteIrqen w s).resp = s.resp := rfl
@[simp] theorem flagsWriteIrqen_draws (w : BusWord) (s : State) : (flagsWriteIrqen w s).draws = s.draws := rfl

/-! ### flagsComplete: A completion's flags (20_memory.md R63). -/

@[simp] theorem flagsComplete_din (s : State) : (flagsComplete s).din = s.din := rfl
@[simp] theorem flagsComplete_key (s : State) : (flagsComplete s).key = s.key := rfl
@[simp] theorem flagsComplete_tgt (s : State) : (flagsComplete s).tgt = s.tgt := rfl
@[simp] theorem flagsComplete_dout (s : State) : (flagsComplete s).dout = s.dout := rfl
@[simp] theorem flagsComplete_subkey (s : State) : (flagsComplete s).subkey = s.subkey := rfl
@[simp] theorem flagsComplete_rcount (s : State) : (flagsComplete s).rcount = s.rcount := rfl
@[simp] theorem flagsComplete_res (s : State) : (flagsComplete s).res = s.res := rfl
@[simp] theorem flagsComplete_busy (s : State) : (flagsComplete s).busy = false := rfl
@[simp] theorem flagsComplete_done (s : State) : (flagsComplete s).done = true := rfl
@[simp] theorem flagsComplete_err (s : State) : (flagsComplete s).err = s.err := rfl
@[simp] theorem flagsComplete_ecode (s : State) : (flagsComplete s).ecode = s.ecode := rfl
@[simp] theorem flagsComplete_doneie (s : State) : (flagsComplete s).doneie = s.doneie := rfl
@[simp] theorem flagsComplete_errie (s : State) : (flagsComplete s).errie = s.errie := rfl
@[simp] theorem flagsComplete_opl (s : State) : (flagsComplete s).opl = s.opl := rfl
@[simp] theorem flagsComplete_nwl (s : State) : (flagsComplete s).nwl = s.nwl := rfl
@[simp] theorem flagsComplete_pin (s : State) : (flagsComplete s).pin = s.pin := rfl
@[simp] theorem flagsComplete_kin (s : State) : (flagsComplete s).kin = s.kin := rfl
@[simp] theorem flagsComplete_tin (s : State) : (flagsComplete s).tin = s.tin := rfl
@[simp] theorem flagsComplete_ph (s : State) : (flagsComplete s).ph = s.ph := rfl
@[simp] theorem flagsComplete_lane (s : State) : (flagsComplete s).lane = s.lane := rfl
@[simp] theorem flagsComplete_workers (s : State) : (flagsComplete s).workers = s.workers := rfl
@[simp] theorem flagsComplete_mergePos (s : State) : (flagsComplete s).mergePos = s.mergePos := rfl
@[simp] theorem flagsComplete_inputs (s : State) : (flagsComplete s).inputs = s.inputs := rfl
@[simp] theorem flagsComplete_resp (s : State) : (flagsComplete s).resp = s.resp := rfl
@[simp] theorem flagsComplete_draws (s : State) : (flagsComplete s).draws = s.draws := rfl

/-! ### accept: An acceptance (30_encoding.md R86) writes the latch, the snapshots, BUSY and DONE and nothing else. -/

@[simp] theorem accept_din (op : Opcode) (nw : Count) (s : State) : (accept op nw s).din = s.din := rfl
@[simp] theorem accept_key (op : Opcode) (nw : Count) (s : State) : (accept op nw s).key = s.key := rfl
@[simp] theorem accept_tgt (op : Opcode) (nw : Count) (s : State) : (accept op nw s).tgt = s.tgt := rfl
@[simp] theorem accept_dout (op : Opcode) (nw : Count) (s : State) : (accept op nw s).dout = s.dout := rfl
@[simp] theorem accept_subkey (op : Opcode) (nw : Count) (s : State) : (accept op nw s).subkey = s.subkey := rfl
@[simp] theorem accept_rcount (op : Opcode) (nw : Count) (s : State) : (accept op nw s).rcount = s.rcount := rfl
@[simp] theorem accept_res (op : Opcode) (nw : Count) (s : State) : (accept op nw s).res = s.res := rfl
@[simp] theorem accept_busy (op : Opcode) (nw : Count) (s : State) : (accept op nw s).busy = true := rfl
@[simp] theorem accept_done (op : Opcode) (nw : Count) (s : State) : (accept op nw s).done = false := rfl
@[simp] theorem accept_err (op : Opcode) (nw : Count) (s : State) : (accept op nw s).err = s.err := rfl
@[simp] theorem accept_ecode (op : Opcode) (nw : Count) (s : State) : (accept op nw s).ecode = s.ecode := rfl
@[simp] theorem accept_doneie (op : Opcode) (nw : Count) (s : State) : (accept op nw s).doneie = s.doneie := rfl
@[simp] theorem accept_errie (op : Opcode) (nw : Count) (s : State) : (accept op nw s).errie = s.errie := rfl
@[simp] theorem accept_opl (op : Opcode) (nw : Count) (s : State) : (accept op nw s).opl = some op := rfl
@[simp] theorem accept_nwl (op : Opcode) (nw : Count) (s : State) : (accept op nw s).nwl = nw := rfl
@[simp] theorem accept_pin (op : Opcode) (nw : Count) (s : State) : (accept op nw s).pin = s.din := rfl
@[simp] theorem accept_kin (op : Opcode) (nw : Count) (s : State) : (accept op nw s).kin = s.key := rfl
@[simp] theorem accept_tin (op : Opcode) (nw : Count) (s : State) : (accept op nw s).tin = s.tgt := rfl
@[simp] theorem accept_ph (op : Opcode) (nw : Count) (s : State) : (accept op nw s).ph = s.ph := rfl
@[simp] theorem accept_lane (op : Opcode) (nw : Count) (s : State) : (accept op nw s).lane = s.lane := rfl
@[simp] theorem accept_workers (op : Opcode) (nw : Count) (s : State) : (accept op nw s).workers = s.workers := rfl
@[simp] theorem accept_mergePos (op : Opcode) (nw : Count) (s : State) : (accept op nw s).mergePos = s.mergePos := rfl
@[simp] theorem accept_inputs (op : Opcode) (nw : Count) (s : State) : (accept op nw s).inputs = s.inputs := rfl
@[simp] theorem accept_resp (op : Opcode) (nw : Count) (s : State) : (accept op nw s).resp = s.resp := rfl
@[simp] theorem accept_draws (op : Opcode) (nw : Count) (s : State) : (accept op nw s).draws = s.draws := rfl

/-! ### resetEvent: The reset event (70_reset_and_hazards.md R270). -/

@[simp] theorem resetEvent_din (s : State) : (resetEvent s).din = State.reset.din := rfl
@[simp] theorem resetEvent_key (s : State) : (resetEvent s).key = State.reset.key := rfl
@[simp] theorem resetEvent_tgt (s : State) : (resetEvent s).tgt = State.reset.tgt := rfl
@[simp] theorem resetEvent_dout (s : State) : (resetEvent s).dout = State.reset.dout := rfl
@[simp] theorem resetEvent_subkey (s : State) : (resetEvent s).subkey = State.reset.subkey := rfl
@[simp] theorem resetEvent_rcount (s : State) : (resetEvent s).rcount = State.reset.rcount := rfl
@[simp] theorem resetEvent_res (s : State) : (resetEvent s).res = State.reset.res := rfl
@[simp] theorem resetEvent_busy (s : State) : (resetEvent s).busy = State.reset.busy := rfl
@[simp] theorem resetEvent_done (s : State) : (resetEvent s).done = State.reset.done := rfl
@[simp] theorem resetEvent_err (s : State) : (resetEvent s).err = State.reset.err := rfl
@[simp] theorem resetEvent_ecode (s : State) : (resetEvent s).ecode = State.reset.ecode := rfl
@[simp] theorem resetEvent_doneie (s : State) : (resetEvent s).doneie = State.reset.doneie := rfl
@[simp] theorem resetEvent_errie (s : State) : (resetEvent s).errie = State.reset.errie := rfl
@[simp] theorem resetEvent_opl (s : State) : (resetEvent s).opl = State.reset.opl := rfl
@[simp] theorem resetEvent_nwl (s : State) : (resetEvent s).nwl = State.reset.nwl := rfl
@[simp] theorem resetEvent_pin (s : State) : (resetEvent s).pin = State.reset.pin := rfl
@[simp] theorem resetEvent_kin (s : State) : (resetEvent s).kin = State.reset.kin := rfl
@[simp] theorem resetEvent_tin (s : State) : (resetEvent s).tin = State.reset.tin := rfl
@[simp] theorem resetEvent_ph (s : State) : (resetEvent s).ph = State.reset.ph := rfl
@[simp] theorem resetEvent_lane (s : State) : (resetEvent s).lane = State.reset.lane := rfl
@[simp] theorem resetEvent_workers (s : State) : (resetEvent s).workers = State.reset.workers := rfl
@[simp] theorem resetEvent_mergePos (s : State) : (resetEvent s).mergePos = State.reset.mergePos := rfl
@[simp] theorem resetEvent_inputs (s : State) : (resetEvent s).inputs = s.inputs := rfl
@[simp] theorem resetEvent_resp (s : State) : (resetEvent s).resp = State.reset.resp := rfl
@[simp] theorem resetEvent_draws (s : State) : (resetEvent s).draws = s.draws := rfl

end Sys2Proof.Machine
end

