-- ==== Sys2Proof/Laws/Bus.lean ====
section
/-! SUPPORT. The bus: what passes the access check, and everything a host access can do. -/

namespace Sys2Proof.Machine

/-- When a SEARCH is in progress. -/
theorem searching_iff (s : State) : searching s = true ↔ (s.busy = true ∧ s.opl = some .search) := by
  simp [searching]

/-- What passes the access check is an aligned word of the register at its offset. -/
theorem checkAccess_some {dir : Dir} {off : Offset} {size : Size} {reg : Reg} (h : checkAccess dir off size = some reg) :
    size = .word ∧ regAt off = some reg := by
  unfold checkAccess at h
  split at h
  · cases h
  · rename_i hc; push Not at hc
    refine ⟨hc.1, ?_⟩
    split at h
    · cases h
    · split at h <;> cases h; assumption

/-- A register of the map other than RES has one offset (20_memory.md R52). -/
theorem offset_of_regAt (off : Offset) (reg : Reg) (h : regAt off = some reg) (h1 : ∀ n, reg ≠ .res n) : off = reg.offset := by
  unfold regAt at h
  split at h
  · cases h; exact absurd rfl (h1 _)
  · split at h <;> cases h <;> apply BitVec.eq_of_toNat_eq <;> simpa [Reg.offset]

/-- The read of RES[n] passes the access check. -/
theorem checkAccess_res (n : Nat) (h : n < 1024) : checkAccess .read (BitVec.ofNat 13 (0x1000 + 4 * n)) .word = some (.res n) := by
  have e : (BitVec.ofNat 13 (0x1000 + 4 * n)).toNat = 0x1000 + 4 * n := by simp; omega
  unfold checkAccess regAt
  rw [e]
  simp [Reg.allows]

/-- A read changes the bus response and the model's count of draws only (20_memory.md R57). -/
theorem readReg_eq (reg : Reg) (s : State) : ∃ v d, readReg reg s = { s with resp := some (.data v), draws := d } := by
  unfold readReg
  split
  · exact ⟨_, s.draws, rfl⟩
  · exact ⟨_, s.draws + 1, rfl⟩

/-- A write that only an idle core takes, while BUSY = 1 (70_reset_and_hazards.md R274). -/
theorem whenIdle_busy {s : State} (f : State → State) (h : s.busy = true) :
    whenIdle s f = raiseCmdError .busyWrite s := by
  unfold whenIdle
  rw [if_pos h]

/-- A write that only an idle core takes, while BUSY = 0. -/
theorem whenIdle_idle {s : State} (f : State → State) (h : s.busy = false) : whenIdle s f = f s := by
  unfold whenIdle
  rw [h]
  rfl

/-- What exec leaves when the core takes the command. -/
def started (i : Instr) (s : State) : State :=
  match i with
  | .encrypt => { accept .encrypt 0 s with ph := .ks }
  | .decrypt => { accept .decrypt 0 s with ph := .ks }
  | .keysched => { accept .keysched 0 s with ph := .ks }
  | .search nw => { accept .search nw s with workers := newWorkers nw.toNat, mergePos := 0 }

/-- An idle core takes every well-formed command (30_encoding.md R86). -/
theorem exec_idle (i : Instr) (s : State) (hb : s.busy = false) (hw : i.wf = true) : exec i s = .next (started i s) := by
  cases i <;> simp_all [exec, execEncrypt, execDecrypt, execKeysched, execSearch, whenIdle, started, Instr.wf]

/-- Everything a host access can do -/
theorem hostAccess_cases (a : Access) (s : State) :
    ∃ t, hostAccess a s = .next t ∧
    ((∃ r d, t = { s with resp := r, draws := d }) ∨
     (∃ c, t = raiseCmdError c (respond .ok s)) ∨
     (∃ w, t = clearStatus w (respond .ok s)) ∨
     (∃ w, t = flagsWriteIrqen w (respond .ok s)) ∨
     (s.busy = false ∧ ∃ d k g, t = { respond .ok s with din := d, key := k, tgt := g }) ∨
     (s.busy = false ∧ ∃ i, i.wf = true ∧ t = started i (respond .ok s))) := by
  cases a with
  | read off size =>
    simp only [hostAccess, memRead]
    split
    · exact ⟨_, rfl, .inl ⟨_, s.draws, rfl⟩⟩
    · refine ⟨_, rfl, .inl ?_⟩
      unfold readReg; split
      · exact ⟨_, s.draws, rfl⟩
      · exact ⟨_, s.draws + 1, rfl⟩
  | write off size w =>
    simp only [hostAccess, memWrite]
    split
    · exact ⟨_, rfl, .inl ⟨_, s.draws, rfl⟩⟩
    · rename_i reg _
      cases reg with
      | cmd =>
        simp only [writeReg, command]
        split
        · exact ⟨_, rfl, .inr (.inl ⟨_, rfl⟩)⟩
        · rename_i hb
          have hb' : s.busy = false := by simpa [respond] using hb
          split
          · exact ⟨_, rfl, .inr (.inl ⟨_, rfl⟩)⟩
          · rename_i i hd
            exact ⟨_, exec_idle i _ hb' (decode_wf hd), .inr (.inr (.inr (.inr (.inr ⟨hb', i, decode_wf hd, rfl⟩))))⟩
      | status => exact ⟨_, rfl, .inr (.inr (.inl ⟨_, rfl⟩))⟩
      | irqen => exact ⟨_, rfl, .inr (.inr (.inr (.inl ⟨_, rfl⟩)))⟩
      | din =>
        refine ⟨_, rfl, ?_⟩
        unfold writeDin whenIdle; split
        · exact .inr (.inl ⟨_, rfl⟩)
        · rename_i hb; have hb' : s.busy = false := by simpa [respond] using hb
          exact .inr (.inr (.inr (.inr (.inl ⟨hb', _, s.key, s.tgt, rfl⟩))))
      | key =>
        refine ⟨_, rfl, ?_⟩
        unfold writeKey whenIdle; split
        · exact .inr (.inl ⟨_, rfl⟩)
        · rename_i hb; have hb' : s.busy = false := by simpa [respond] using hb
          exact .inr (.inr (.inr (.inr (.inl ⟨hb', s.din, _, s.tgt, rfl⟩))))
      | tgt =>
        refine ⟨_, rfl, ?_⟩
        unfold writeTgt whenIdle; split
        · exact .inr (.inl ⟨_, rfl⟩)
        · rename_i hb; have hb' : s.busy = false := by simpa [respond] using hb
          exact .inr (.inr (.inr (.inr (.inl ⟨hb', s.din, s.key, _, rfl⟩))))
      | id => exact ⟨_, rfl, .inl ⟨_, s.draws, rfl⟩⟩
      | dout => exact ⟨_, rfl, .inl ⟨_, s.draws, rfl⟩⟩
      | subkey => exact ⟨_, rfl, .inl ⟨_, s.draws, rfl⟩⟩
      | rcount => exact ⟨_, rfl, .inl ⟨_, s.draws, rfl⟩⟩
      | res n => exact ⟨_, rfl, .inl ⟨_, s.draws, rfl⟩⟩

end Sys2Proof.Machine
end

