-- ==== Sys2Proof/Laws/Cipher.lean ====
section
/-! SUPPORT. The cipher engine: the network, the phases of 42_cipher.md R162, and the completion. -/

namespace Sys2Proof.Machine

/-- The inverse check of R106 speaks of all 256 sequences. -/
theorem undoes_iff (a b : List Nat) : undoes a b = true ↔
    ∀ x : Block, (perm 8 a (perm 8 b x : Block) : Block) = x := by
  unfold undoes
  simp only [List.all_eq_true, List.mem_range, beq_iff_eq]
  constructor
  · intro h x
    have := h x.toNat x.isLt
    simpa using this
  · intro h x _; exact h _

/-- A block through the phases of R162 is the network of R160 and R161. -/
theorem laneFP_laneRun (T : Tables) (way : Way) (k : Key) (x : Block) (d : Lane) :
    laneFP T (laneRun T way k x d) = feistel T (roundKeys T way k).1 (roundKeys T way k).2 x := rfl

/-- The network with the round keys of ENCRYPT (R160). -/
theorem feistel_encrypting (T : Tables) (k : Key) (x : Block) :
    feistel T (roundKeys T .encrypting k).1 (roundKeys T .encrypting k).2 x = encrypt T x k := rfl

/-- The network with the round keys of DECRYPT (R161). -/
theorem feistel_decrypting (T : Tables) (k : Key) (x : Block) :
    feistel T (roundKeys T .decrypting k).1 (roundKeys T .decrypting k).2 x = decrypt T x k := rfl

/-- What phase FP of a running ENCRYPT or DECRYPT hands out. -/
theorem laneFP_of_fp {way : Way} {s : State} (hl : s.lane.l = half3 way s) (hr : s.lane.r = half1 way s) :
    laneFP coreTables s.lane =
      feistel coreTables (roundKeys coreTables way s.kin).1 (roundKeys coreTables way s.kin).2 s.pin := by
  unfold laneFP; rw [hl, hr]; rfl

/-- Phase KS leaves the registers in order. -/
theorem phaseKS_inv (way : Way) (s : State) : cipherInv way (phaseKS way s) := by
  simp [cipherInv, phaseKS, keysLoaded, laneKS, keyOperand]

/-- Phase IP keeps them in order. -/
theorem phaseIP_inv {way : Way} {s : State} (h : cipherInv way s) (hp : s.ph = .ip) : cipherInv way (phaseIP s) := by
  simp only [cipherInv, hp, keysLoaded] at h
  simp [cipherInv, phaseIP, keysLoaded, laneIP, blockOperand, halves0, h]

/-- Phase R1 keeps them in order. -/
theorem phaseR1_inv {way : Way} {s : State} (h : cipherInv way s) (hp : s.ph = .r1) : cipherInv way (phaseR1 s) := by
  simp only [cipherInv, hp, keysLoaded, halves0] at h
  obtain ⟨⟨h1, h2⟩, h3, h4⟩ := h
  simp [cipherInv, phaseR1, keysLoaded, laneR1, half1, halves0, h1, h2, h3, h4]

/-- Phase SW keeps them in order. -/
theorem phaseSW_inv {way : Way} {s : State} (h : cipherInv way s) (hp : s.ph = .sw) : cipherInv way (phaseSW s) := by
  simp only [cipherInv, hp, keysLoaded, halves0, half1] at h
  obtain ⟨⟨h1, h2⟩, h3, h4⟩ := h
  simp [cipherInv, phaseSW, keysLoaded, laneSW, half1, halves0, h1, h2, h3, h4]

/-- Phase R2 keeps them in order. -/
theorem phaseR2_inv {way : Way} {s : State} (h : cipherInv way s) (hp : s.ph = .r2) : cipherInv way (phaseR2 s) := by
  simp only [cipherInv, hp, keysLoaded, halves0, half1] at h
  obtain ⟨⟨h1, h2⟩, h3, h4⟩ := h
  simp [cipherInv, phaseR2, keysLoaded, laneR2, half1, half3, halves0, h1, h2, h3, h4]

/-- What a running ENCRYPT or DECRYPT leaves when it completes (42_cipher.md R163, R164). -/
def blockPublished (way : Way) (s : State) (d : Lane) : State :=
  flagsComplete { s with
    dout := feistel coreTables (roundKeys coreTables way s.kin).1 (roundKeys coreTables way s.kin).2 s.pin
    lane := d
    ph := .idle }

/-- The completion of a running ENCRYPT or DECRYPT, from whatever phase it has reached: it publishes the block of R160 or
R161. -/
theorem completeCipher_eq {way : Way} {s : State} (h : cipherInv way s) :
    ∃ d, completeCipher way s = .next (blockPublished way s d) := by
  have fp : ∀ t : State, cipherInv way t → t.ph = .fp → phaseFP t = blockPublished way t t.lane := by
    intro t ht hp
    simp only [cipherInv, hp] at ht
    unfold phaseFP
    rw [laneFP_of_fp ht.2.1 ht.2.2]
    rfl
  have r2 : ∀ t : State, cipherInv way t → t.ph = .r2 → ∃ d, phaseFP (phaseR2 t) = blockPublished way t d :=
    fun t ht hp => ⟨_, fp _ (phaseR2_inv ht hp) rfl⟩
  have sw : ∀ t : State, cipherInv way t → t.ph = .sw →
      ∃ d, phaseFP (phaseR2 (phaseSW t)) = blockPublished way t d :=
    fun t ht hp => r2 _ (phaseSW_inv ht hp) rfl
  have r1 : ∀ t : State, cipherInv way t → t.ph = .r1 →
      ∃ d, phaseFP (phaseR2 (phaseSW (phaseR1 t))) = blockPublished way t d :=
    fun t ht hp => sw _ (phaseR1_inv ht hp) rfl
  have ip : ∀ t : State, cipherInv way t → t.ph = .ip →
      ∃ d, phaseFP (phaseR2 (phaseSW (phaseR1 (phaseIP t)))) = blockPublished way t d :=
    fun t ht hp => r1 _ (phaseIP_inv ht hp) rfl
  unfold completeCipher
  match hp : s.ph with
  | .idle => simp [cipherInv, hp] at h
  | .ks => obtain ⟨d, hd⟩ := ip _ (phaseKS_inv way s) rfl; exact ⟨d, by simp only [hd]; rfl⟩
  | .ip => obtain ⟨d, hd⟩ := ip _ h hp; exact ⟨d, by simp only [hd]⟩
  | .r1 => obtain ⟨d, hd⟩ := r1 _ h hp; exact ⟨d, by simp only [hd]⟩
  | .sw => obtain ⟨d, hd⟩ := sw _ h hp; exact ⟨d, by simp only [hd]⟩
  | .r2 => obtain ⟨d, hd⟩ := r2 _ h hp; exact ⟨d, by simp only [hd]⟩
  | .fp => exact ⟨s.lane, by simp only [fp _ h hp]⟩

/-- One phase of a running ENCRYPT or DECRYPT: an internal transfer, or, in FP, the completion. -/
theorem phaseCipher_cases {way : Way} {s : State} (h : cipherInv way s) :
    (∃ t, phaseCipher way s = .next t ∧ cipherInv way t ∧ ∃ ph d, t = { s with ph := ph, lane := d }) ∨
    (phaseCipher way s = completeCipher way s) := by
  unfold phaseCipher completeCipher
  match hp : s.ph with
  | .idle => simp [cipherInv, hp] at h
  | .ks => exact .inl ⟨_, rfl, phaseKS_inv way s, _, _, rfl⟩
  | .ip => exact .inl ⟨_, rfl, phaseIP_inv h hp, _, _, rfl⟩
  | .r1 => exact .inl ⟨_, rfl, phaseR1_inv h hp, _, _, rfl⟩
  | .sw => exact .inl ⟨_, rfl, phaseSW_inv h hp, _, _, rfl⟩
  | .r2 => exact .inl ⟨_, rfl, phaseR2_inv h hp, _, _, rfl⟩
  | .fp => exact .inr rfl

end Sys2Proof.Machine
end

