-- ==== Sys2Proof/Laws/Search.lean ====
section
/-! SUPPORT. The key search: ranges, workers, buffers, and the completion (43_key_search.md R192 to R197). -/

namespace Sys2Proof.Machine

/-- An empty range has no match. -/
theorem matchesIn_nil (T : Tables) (p c : Block) (lo : Nat) : matchesIn T p c lo lo = [] := by
  simp [matchesIn]

/-- The matches of two ranges that meet. -/
theorem matchesIn_append (T : Tables) (p c : Block) {lo mid hi : Nat} (h1 : lo ≤ mid) (h2 : mid ≤ hi) :
    matchesIn T p c lo mid ++ matchesIn T p c mid hi = matchesIn T p c lo hi := by
  unfold matchesIn
  rw [← List.map_append, ← List.filter_append]
  congr 2
  have := List.range'_append (s := lo) (m := mid - lo) (n := hi - mid) (step := 1)
  rw [show lo + 1 * (mid - lo) = mid by omega, show mid - lo + (hi - mid) = hi - lo by omega] at this
  exact this

/-- The matches of a range one candidate longer. -/
theorem matchesIn_succ (T : Tables) (p c : Block) {lo i : Nat} (h : lo ≤ i) :
    matchesIn T p c lo (i + 1) =
      if isMatch T p c i then matchesIn T p c lo i ++ [intToKey i] else matchesIn T p c lo i := by
  rw [← matchesIn_append T p c h (Nat.le_succ i)]
  unfold matchesIn
  simp only [show i + 1 - i = 1 by omega, List.range'_one, List.filter_singleton]
  cases isMatch T p c i <;> simp

/-- A lane run on a candidate hands out its encryption (43_key_search.md R194). -/
theorem laneFP_laneRun_eq_iff (T : Tables) (k : Key) (p c : Block) (d : Lane) :
    laneFP T (laneRun T .encrypting k p d) = c ↔ encrypt T p k = c := by
  rw [laneFP_laneRun, feistel_encrypting]

/-- One round of a worker's loop keeps what holds of a worker, its range, and (once set) fin. -/
theorem advance_workerInv {T : Tables} {p c : Block} {w : Worker} (h : workerInv T p c w) :
    workerInv T p c (w.advance T p c) := by
  unfold Worker.advance
  split
  · rename_i hlt
    refine ⟨?_, ?_, ?_, ?_⟩
    · have := h.low; simp; omega
    · simp; omega
    · simp only [laneFP_laneRun_eq_iff]
      rw [matchesIn_succ T p c h.low, ← h.found]
      simp [isMatch]
    · simp only; intro hf; have := h.ended hf; omega
  · rename_i hlt
    exact ⟨h.low, h.high, h.found, fun _ => by have := h.high; simp only; omega⟩

/-- A round leaves the lower bound. -/
@[simp] theorem advance_lo (T : Tables) (p c : Block) (w : Worker) : (w.advance T p c).lo = w.lo := by
  unfold Worker.advance; split <;> rfl

/-- A round leaves the upper bound. -/
@[simp] theorem advance_hi (T : Tables) (p c : Block) (w : Worker) : (w.advance T p c).hi = w.hi := by
  unfold Worker.advance; split <;> rfl

/-- A round steps the counter by 1, and never past the upper bound. -/
theorem advance_i (T : Tables) (p c : Block) (w : Worker) :
    (w.advance T p c).i = if w.i < w.hi then w.i + 1 else w.i := by
  unfold Worker.advance; split <;> rfl

/-- A round past the last candidate sets fin_w. -/
theorem advance_fin (T : Tables) (p c : Block) (w : Worker) :
    (w.advance T p c).fin = if w.i < w.hi then w.fin else true := by
  unfold Worker.advance; split <;> rfl

/-- Rounds keep what holds of a worker. -/
theorem rounds_workerInv {T : Tables} {p c : Block} (n : Nat) {w : Worker} (h : workerInv T p c w) :
    workerInv T p c (Worker.rounds T p c n w) := by
  induction n generalizing w with
  | zero => exact h
  | succ n ih => exact ih (advance_workerInv h)

/-- Rounds leave the lower bound. -/
@[simp] theorem rounds_lo (T : Tables) (p c : Block) (n : Nat) (w : Worker) :
    (Worker.rounds T p c n w).lo = w.lo := by
  induction n generalizing w with
  | zero => rfl
  | succ n ih => simp [Worker.rounds, ih]

/-- Rounds leave the upper bound. -/
@[simp] theorem rounds_hi (T : Tables) (p c : Block) (n : Nat) (w : Worker) :
    (Worker.rounds T p c n w).hi = w.hi := by
  induction n generalizing w with
  | zero => rfl
  | succ n ih => simp [Worker.rounds, ih]

/-- Enough rounds finish a worker. -/
theorem rounds_fin (T : Tables) (p c : Block) (n : Nat) (w : Worker) (h : w.hi - w.i < n) :
    (Worker.rounds T p c n w).fin = true := by
  induction n generalizing w with
  | zero => omega
  | succ n ih =>
    by_cases hlt : w.i < w.hi
    · apply ih; rw [advance_hi, advance_i, if_pos hlt]; omega
    · have hstay : ∀ m (v : Worker), ¬ v.i < v.hi → v.fin = true → (Worker.rounds T p c m v).fin = true := by
        intro m; induction m with
        | zero => intro v _ hf; exact hf
        | succ m ihm =>
          intro v hv hf
          apply ihm
          · rw [advance_hi, advance_i, if_neg hv]; exact hv
          · rw [advance_fin, if_neg hv]
      exact hstay n (w.advance T p c) (by rw [advance_hi, advance_i, if_neg hlt]; exact hlt)
        (by rw [advance_fin, if_neg hlt])

/-- A worker run to its end has found exactly the matches of its range. -/
theorem finish_lb {T : Tables} {p c : Block} {w : Worker} (h : workerInv T p c w) :
    (w.finish T p c).lb = matchesIn T p c w.lo w.hi := by
  have hi := rounds_workerInv (w.hi - w.i + 1) h
  have hf := rounds_fin T p c (w.hi - w.i + 1) w (by omega)
  have := hi.ended hf
  have hfd := hi.found
  rw [this] at hfd
  simpa [Worker.finish] using hfd

/-- A range ends where the next begins. -/
theorem partHi_eq_partLo_succ {n w : Nat} (h : w + 1 < n) : partHi n w = partLo n (w + 1) := by
  unfold partHi partLo; rw [if_pos (by omega)]

/-- The last range ends at 1024. -/
theorem partHi_last (n : Nat) : partHi n (n - 1) = 1024 := by
  unfold partHi; rw [if_neg (by omega)]

/-- The first range begins at 0. -/
theorem partLo_zero (n : Nat) : partLo n 0 = 0 := by simp [partLo]

/-- No range is empty. -/
theorem partLo_lt_partHi {n w : Nat} (h1 : 1 ≤ n) (h2 : n ≤ 1024) (hw : w < n) : partLo n w < partHi n w := by
  have hq : 1 ≤ 1024 / n := (Nat.one_le_div_iff (by omega)).2 h2
  unfold partHi partLo
  split
  · rw [Nat.add_mul]; omega
  · have hw' : w = n - 1 := by omega
    subst hw'
    have : n * (1024 / n) ≤ 1024 := Nat.mul_div_le 1024 n
    have e : (n - 1) * (1024 / n) + 1024 / n = n * (1024 / n) := by
      rw [← Nat.succ_mul]; congr 1; omega
    omega

/-- The ranges 0 to k of a partition, concatenated, are one range. -/
theorem flatten_parts (T : Tables) (p c : Block) {n : Nat} (h1 : 1 ≤ n) (h2 : n ≤ 1024) (k : Nat) (hk : k < n) :
    ((List.range (k + 1)).map fun w => matchesIn T p c (partLo n w) (partHi n w)).flatten =
      matchesIn T p c 0 (partHi n k) := by
  induction k with
  | zero => simp [partLo_zero]
  | succ k ih =>
    rw [List.range_succ, List.map_append, List.flatten_append, ih (by omega)]
    simp only [List.map_cons, List.map_nil, List.flatten_cons, List.flatten_nil, List.append_nil]
    rw [partHi_eq_partLo_succ hk]
    apply matchesIn_append
    · exact Nat.zero_le _
    · exact (partLo_lt_partHi h1 h2 hk).le

/-- The matches of the ranges of R192, in worker order, are those of the whole keyspace. -/
theorem flatten_partition (T : Tables) (p c : Block) {n : Nat} (h1 : 1 ≤ n) (h2 : n ≤ 1024) :
    ((List.range n).map fun w => matchesIn T p c (partLo n w) (partHi n w)).flatten = searchKeys T p c := by
  have := flatten_parts T p c h1 h2 (n - 1) (by omega)
  rwa [show n - 1 + 1 = n by omega, partHi_last n] at this

/-- What is a function of a worker's range is a function of its number (R192). -/
theorem map_range_eq {s : State} (h : searchInv s) {f : Nat × Nat → List Key} :
    s.workers.map (fun w => f (w.lo, w.hi)) =
      (List.range (workerCount s)).map fun w => f (partLo (workerCount s) w, partHi (workerCount s) w) := by
  have := congrArg (List.map f) h.ranges
  simpa [List.map_map, Function.comp_def] using this

/-- Buffers that hold the matches of their workers' whole ranges, in worker order, are the whole search. -/
theorem flatten_found {s : State} (h : searchInv s) (g : Worker → List Key)
    (hg : ∀ w ∈ s.workers, g w = matchesIn coreTables s.pin s.tin w.lo w.hi) :
    (s.workers.map g).flatten = searchKeys coreTables s.pin s.tin := by
  have hc := (nwLegal_iff _).1 h.count
  rw [← flatten_partition coreTables s.pin s.tin hc.1 hc.2]
  congr 1
  have hm := map_range_eq h (f := fun r => matchesIn coreTables s.pin s.tin r.1 r.2)
  simp only [workerCount] at hm
  rw [← hm]
  exact List.map_congr_left hg

/-- Workers run to their ends hold the whole search. -/
theorem merged_finish {s : State} (h : searchInv s) :
    merged { s with workers := s.workers.map (Worker.finish coreTables (blockOperand s) (targetOperand s)) } =
      searchKeys coreTables s.pin s.tin := by
  unfold merged
  rw [List.map_map]
  exact flatten_found h _ fun w hw => finish_lb (h.each w hw)

/-- The atomic completion of a running SEARCH publishes the search of the snapshots (43_key_search.md R198). -/
theorem completeSearch_eq {s : State} (h : searchInv s) : completeSearch s = .next (flagsComplete { s with
     rcount := BitVec.ofNat 11 (searchKeys coreTables s.pin s.tin).length
     res := searchKeys coreTables s.pin s.tin
     workers := [], mergePos := 0 }) := by
  unfold completeSearch finishSearch
  rw [merged_finish h]

/-- A result fits RES and RCOUNT (43_key_search.md R206). -/
theorem searchKeys_length_le (T : Tables) (p c : Block) : (searchKeys T p c).length ≤ 1024 := by
  unfold searchKeys matchesIn
  rw [List.length_map]
  exact (List.length_filter_le _ _).trans (by simp)

/-- RCOUNT holds the length of the result. -/
theorem searchKeys_results (T : Tables) (p c : Block) :
   (searchKeys T p c).length = (BitVec.ofNat 11 (searchKeys T p c).length).toNat := by
  have := searchKeys_length_le T p c
  simp; omega

/-- Candidate and key are the same number (R191). -/
theorem intToKey_toNat {i : Nat} (h : i < 1024) : (intToKey i).toNat = i := by
  unfold intToKey; simp; omega

/-- A result is ascending (43_key_search.md R190). -/
theorem searchKeys_ascending (T : Tables) (p c : Block) :
    (searchKeys T p c).Pairwise fun a b => a.toNat < b.toNat := by
  unfold searchKeys matchesIn
  rw [List.pairwise_map]
  have h : ((List.range' 0 (1024 - 0)).filter (isMatch T p c)).Pairwise (· < ·) :=
    List.Pairwise.filter _ (List.pairwise_lt_range')
  refine h.imp_of_mem ?_
  intro a b ha hb hab
  have ha' : a < 1024 := by have := (List.mem_filter.1 ha).1; simpa using this
  have hb' : b < 1024 := by have := (List.mem_filter.1 hb).1; simpa using this
  rw [intToKey_toNat ha', intToKey_toNat hb']; exact hab

/-- A search that starts is in order. -/
theorem newWorkers_searchInv {s : State} (h : nwLegal s.nwl = true) (hw : s.workers = newWorkers s.nwl.toNat)
    (hm : s.mergePos = 0) : searchInv s := by
  have hc := (nwLegal_iff _).1 h
  refine ⟨h, ?_, ?_, ?_, ?_⟩
  · rw [hw]; simp [newWorkers, newWorker, workerCount, Function.comp_def]
  · rw [hw]; intro w hwm
    simp only [newWorkers, List.mem_map, List.mem_range] at hwm
    obtain ⟨j, hj, rfl⟩ := hwm
    exact ⟨Nat.le_refl _, (partLo_lt_partHi hc.1 hc.2 hj).le, by simp [newWorker, matchesIn_nil], by simp [newWorker]⟩
  · omega
  · omega

/-- A worker's round keeps a search in order. -/
theorem moveWorker_searchInv {s : State} (w : Nat) (h : searchInv s) : searchInv (moveWorker w s) := by
  have hmod : ∀ (f : Worker → Nat × Nat), (∀ v, f (Worker.advance coreTables s.pin s.tin v) = f v) →
      (s.workers.modify w (Worker.advance coreTables s.pin s.tin)).map f = s.workers.map f := by
    intro f hf
    apply List.ext_getElem
    · simp
    · intro i h1 h2
      simp only [List.getElem_map, List.getElem_modify]
      split
      · exact hf _
      · rfl
  refine ⟨h.count, ?_, ?_, ?_, ?_⟩
  · exact (hmod _ (fun v => by simp)).trans h.ranges
  · intro v hv
    obtain ⟨i, hi, rfl⟩ := List.mem_iff_getElem.1 hv
    have hi' : i < s.workers.length := by simpa [moveWorker] using hi
    have e : (moveWorker w s).workers[i] =
        if w = i then Worker.advance coreTables s.pin s.tin s.workers[i] else s.workers[i] :=
      List.getElem_modify ..
    rw [e]
    split
    · exact advance_workerInv (h.each _ (List.getElem_mem _))
    · exact h.each _ (List.getElem_mem _)
  · simpa [moveWorker] using h.position
  · intro hm
    have hall := h.joined hm
    simp only [allFin, List.all_eq_true] at hall ⊢
    intro v hv
    obtain ⟨i, hi, rfl⟩ := List.mem_iff_getElem.1 hv
    have hi' : i < s.workers.length := by simpa [moveWorker] using hi
    have e : (moveWorker w s).workers[i] =
        if w = i then Worker.advance coreTables s.pin s.tin s.workers[i] else s.workers[i] :=
      List.getElem_modify ..
    have hf := hall s.workers[i] (List.getElem_mem _)
    rw [e]
    split
    · rw [advance_fin]; split <;> first | exact hf | rfl
    · exact hf

/-- A step of the aggregator: an internal transfer, or the publication (R195, R196). -/
theorem moveMerge_cases (s : State) (h : searchInv s) :
    (searchInv (moveMerge s) ∧ moveMerge s = { s with mergePos := (moveMerge s).mergePos }) ∨
    moveMerge s = flagsComplete { s with
      rcount := BitVec.ofNat 11 (searchKeys coreTables s.pin s.tin).length
      res := searchKeys coreTables s.pin s.tin, workers := [], mergePos := 0 } := by
  unfold moveMerge
  split
  · rename_i hf
    split
    · rename_i hp
      exact .inl ⟨⟨h.count, h.ranges, h.each, hp, fun _ => hf⟩, rfl⟩
    · have hm : merged s = searchKeys coreTables s.pin s.tin := by
        refine flatten_found h _ fun w hw => ?_
        have hw' := h.each w hw
        rw [hw'.found, hw'.ended (by simp only [allFin, List.all_eq_true] at hf; exact hf w hw)]
        rfl
      right; unfold finishSearch; rw [hm]
  · exact .inl ⟨h, rfl⟩

end Sys2Proof.Machine
end

