-- ==== Sys2Proof/Laws/Engine.lean ====
section
/-! SUPPORT. The CORE: everything a move of it can do, and what each event does to the invariant of Safety.lean. -/

namespace Sys2Proof.Machine

/-- What the command latch can hold. -/
theorem opl_cases (s : State) : s.opl = none ∨ s.opl = some .encrypt ∨ s.opl = some .decrypt ∨
    s.opl = some .keysched ∨ s.opl = some .search := by
  rcases s.opl with _ | (_ | _ | _ | _) <;> simp

/-- t differs from s at most in the operand registers, in DONE, ERR, ECODE and IRQEN, and in the model's own fields: it
runs the same command, from the same snapshots, as far as s, and holds the same results. -/
def SameCommand (s t : State) : Prop :=
  t = { s with
    din := t.din, key := t.key, tgt := t.tgt, done := t.done, err := t.err, ecode := t.ecode
    doneie := t.doneie, errie := t.errie, inputs := t.inputs, resp := t.resp, draws := t.draws }

/-- The running command is in order in both or in neither. -/
theorem runningInv_of_sameCommand {s t : State} (h : SameCommand s t) (hr : runningInv s) : runningInv t := by
  unfold SameCommand at h
  rw [h]
  rcases opl_cases s with ho | ho | ho | ho | ho <;> simp only [runningInv, ho] at hr ⊢
  · exact hr
  · exact hr
  · exact hr
  · exact ⟨hr.1, hr.2.count, hr.2.ranges, hr.2.each, hr.2.position, hr.2.joined⟩

/-- The invariant of such a state needs only its clauses about ERR, ECODE and DONE. -/
theorem inv_of_sameCommand {s t : State} (hi : Inv s) (h : SameCommand s t)
    (hc : t.ecode.toNat ≤ 3 ∧ (t.err = false ↔ t.ecode = 0#3)) (hd : ¬(t.busy = true ∧ t.done = true)) : Inv t := by
  have hb : t.busy = s.busy := by unfold SameCommand at h; rw [h]
  refine ⟨hc, hd, fun h0 => ?_, fun h1 => runningInv_of_sameCommand h (hi.running (hb ▸ h1)), ?_⟩
  · unfold SameCommand at h
    rw [h]
    exact hi.idle (hb ▸ h0)
  · unfold SameCommand at h
    rw [h]
    exact hi.results

/-- A completed command leaves the invariant. -/
theorem inv_of_publish {s : State} (hi : Inv s) {t : State}
    (ht : t = flagsComplete t) (hph : t.ph = .idle) (hns : noSearch t) (he : t.ecode = s.ecode) (hr : t.err = s.err)
    (hres : t.res.length = t.rcount.toNat ∧ t.res.length ≤ 1024 ∧ t.res.Pairwise fun a b => a.toNat < b.toNat) :
    Inv t := by
  have hbt : t.busy = false := by rw [ht]; rfl
  refine ⟨?_, ?_, ?_, ?_, hres⟩
  · rw [he, hr]; exact hi.code
  · simp [hbt]
  · intro _; exact ⟨hph, hns⟩
  · simp [hbt]

/-- The atomic completion, from every state of the invariant: it publishes, and keeps the invariant
(70_reset_and_hazards.md R278). -/
theorem complete_published {s : State} (hi : Inv s) (hb : s.busy = true) :
    ∃ d, complete s = .next (published s d) ∧ Inv (published s d) := by
  have hr := hi.running hb
  unfold complete published
  match ho : s.opl with
  | none => simp [runningInv, ho] at hr
  | some .encrypt =>
    simp only [runningInv, ho] at hr
    obtain ⟨d, hd⟩ := completeCipher_eq hr.1
    exact ⟨d, hd.trans (by unfold blockPublished; rw [ho]; rfl), inv_of_publish hi rfl rfl hr.2 rfl rfl hi.results⟩
  | some .decrypt =>
    simp only [runningInv, ho] at hr
    obtain ⟨d, hd⟩ := completeCipher_eq hr.1
    exact ⟨d, hd.trans (by unfold blockPublished; rw [ho]; rfl), inv_of_publish hi rfl rfl hr.2 rfl rfl hi.results⟩
  | some .keysched =>
    simp only [runningInv, ho] at hr
    exact ⟨s.lane, by simp only [completeKeysched, phaseKeysched, hr.1]; rw [← ho]; rfl,
      inv_of_publish hi rfl rfl hr.2 rfl rfl hi.results⟩
  | some .search =>
    simp only [runningInv, ho] at hr
    exact ⟨s.lane, (completeSearch_eq hr.2).trans (by rw [ho]), inv_of_publish hi rfl hr.1 ⟨rfl, rfl⟩ rfl rfl
      ⟨searchKeys_results _ _ _, searchKeys_length_le _ _ _, searchKeys_ascending _ _ _⟩⟩

/-- Acceptance keeps the invariant. -/
theorem inv_started {s : State} (hi : Inv s) (hb : s.busy = false) (i : Instr) (hw : i.wf = true) : Inv (started i s) := by
  have hid := hi.idle hb
  cases i with
  | encrypt => exact ⟨hi.code, by simp [started], by simp [started], fun _ => ⟨trivial, hid.2⟩, hi.results⟩
  | decrypt => exact ⟨hi.code, by simp [started], by simp [started], fun _ => ⟨trivial, hid.2⟩, hi.results⟩
  | keysched => exact ⟨hi.code, by simp [started], by simp [started], fun _ => ⟨rfl, hid.2⟩, hi.results⟩
  | search nw =>
    exact ⟨hi.code, by simp [started], by simp [started],
      fun _ => ⟨hid.1, newWorkers_searchInv hw rfl rfl⟩, hi.results⟩

/-- A command error keeps the invariant. -/
theorem inv_raise {s : State} (hi : Inv s) (c : CmdError) : Inv (raiseCmdError c s) := by
  refine inv_of_sameCommand hi rfl ?_ hi.busyDone
  have hc := hi.code
  simp only [raiseCmdError, flagsError]
  cases he : s.err
  · cases c <;> simp [ecodeOf]
  · have h1 := hc.1
    have : s.ecode ≠ 0#3 := fun h0 => by have := hc.2.2 h0; simp [he] at this
    simp [this]; omega

/-- A write of STATUS keeps the invariant. -/
theorem inv_clearStatus {s : State} (hi : Inv s) (w : BusWord) : Inv (clearStatus w s) := by
  refine inv_of_sameCommand hi rfl ?_ ?_
  · have hc := hi.code
    simp only [clearStatus, flagsWriteStatus]
    cases w.getLsbD 2 <;> simp [hc]
  · rintro ⟨h1, h2⟩
    simp only [clearStatus_done, Bool.and_eq_true] at h2
    exact hi.busyDone ⟨h1, h2.1⟩

/-- A host access keeps the invariant. -/
theorem inv_hostAccess {s t : State} (a : Access) (hi : Inv s) (h : hostAccess a s = .next t) : Inv t := by
  obtain ⟨u, hu, hc⟩ := hostAccess_cases a s
  rw [h] at hu
  cases hu
  have hresp : Inv (respond .ok s) := inv_of_sameCommand hi rfl hi.code hi.busyDone
  rcases hc with ⟨r, d, rfl⟩ | ⟨c, rfl⟩ | ⟨w, rfl⟩ | ⟨w, rfl⟩ | ⟨hb, d, k, g, rfl⟩ | ⟨hb, i, hw, rfl⟩
  · exact inv_of_sameCommand hi rfl hi.code hi.busyDone
  · exact inv_raise hresp c
  · exact inv_clearStatus hresp w
  · exact inv_of_sameCommand hi rfl hi.code hi.busyDone
  · exact inv_of_sameCommand hi rfl hi.code hi.busyDone
  · exact inv_started hresp hb i hw

/-- Some internal registers of the CORE changed, and nothing else. -/
def Silent (s t : State) : Prop :=
  ∃ ph d ws mp, t = { s with ph := ph, lane := d, workers := ws, mergePos := mp }

/-- A silent move that keeps the command in order keeps the invariant. -/
theorem inv_of_silent {s t : State} (hi : Inv s) (hb : s.busy = true) (hs : Silent s t) (hr : runningInv t) : Inv t := by
  obtain ⟨ph, d, ws, mp, rfl⟩ := hs
  exact ⟨hi.code, hi.busyDone, fun h => by simp [hb] at h, fun _ => hr, hi.results⟩

/-- A CORE move in an invariant state: either a silent move, or the publication. -/
theorem coreMove_cases {s : State} (hi : Inv s) (m : CoreMove) :
    ∃ t, coreMove m s = .next t ∧ Inv t ∧ (Silent s t ∨ (s.busy = true ∧ ∃ d, t = published s d)) := by
  have same : ∃ t, Host.Outcome.next (φ := Fault) (ρ := Refusal) s = .next t ∧ Inv t ∧
      (Silent s t ∨ (s.busy = true ∧ ∃ d, t = published s d)) := ⟨s, rfl, hi, .inl ⟨_, _, _, _, rfl⟩⟩
  unfold coreMove
  split
  · rename_i hb
    have hr := hi.running hb
    obtain ⟨d, h1, h2⟩ := complete_published hi hb
    have done : ∃ t, complete s = .next t ∧ Inv t ∧ (Silent s t ∨ (s.busy = true ∧ ∃ d, t = published s d)) :=
      ⟨_, h1, h2, .inr ⟨hb, d, rfl⟩⟩
    cases m with
    | complete => exact done
    | phase =>
      simp only [movePhase]
      rcases opl_cases s with ho | ho | ho | ho | ho <;> simp only [runningInv, ho] at hr <;> simp only [ho]
      · rcases phaseCipher_cases hr.1 with ⟨t, h1, h2, ph, d, rfl⟩ | h
        · have hs : Silent s { s with ph := ph, lane := d } := ⟨_, _, _, _, rfl⟩
          have hr' : runningInv { s with ph := ph, lane := d } := by
            unfold runningInv
            simp only [ho]
            exact ⟨h2, hr.2⟩
          exact ⟨_, h1, inv_of_silent hi hb hs hr', .inl hs⟩
        · rw [h]; simpa only [complete, ho] using done
      · rcases phaseCipher_cases hr.1 with ⟨t, h1, h2, ph, d, rfl⟩ | h
        · have hs : Silent s { s with ph := ph, lane := d } := ⟨_, _, _, _, rfl⟩
          have hr' : runningInv { s with ph := ph, lane := d } := by
            unfold runningInv
            simp only [ho]
            exact ⟨h2, hr.2⟩
          exact ⟨_, h1, inv_of_silent hi hb hs hr', .inl hs⟩
        · rw [h]; simpa only [complete, ho] using done
      · simpa only [complete, completeKeysched, ho] using done
      · exact same
    | worker w =>
      simp only
      split
      · rename_i ho
        simp only [runningInv, ho] at hr
        have hs : Silent s (moveWorker w s) := ⟨_, _, _, _, rfl⟩
        have e : (moveWorker w s).opl = some .search := ho
        have hr' : runningInv (moveWorker w s) := by
          unfold runningInv
          simp only [e]
          exact ⟨hr.1, moveWorker_searchInv w hr.2⟩
        exact ⟨_, rfl, inv_of_silent hi hb hs hr', .inl hs⟩
      · exact same
    | merge =>
      simp only
      split
      · rename_i ho
        simp only [runningInv, ho] at hr
        refine ⟨_, rfl, ?_⟩
        rcases moveMerge_cases s hr.2 with ⟨h1, h2⟩ | h
        · have hs : Silent s (moveMerge s) := ⟨_, _, _, _, h2⟩
          have e : (moveMerge s).opl = some .search := by rw [h2]; exact ho
          have e2 : (moveMerge s).ph = .idle := by rw [h2]; exact hr.1
          have hr' : runningInv (moveMerge s) := by
            unfold runningInv
            simp only [e]
            exact ⟨e2, h1⟩
          exact ⟨inv_of_silent hi hb hs hr', .inl hs⟩
        · have hp : ∀ d, moveMerge s = published s d := by intro d; rw [h]; simp only [published, ho]
          exact ⟨by rw [hp d]; exact h2, .inr ⟨hb, d, hp d⟩⟩
      · exact same
  · exact same

/-- The reset event leaves the invariant. -/
theorem inv_resetEvent (s : State) : Inv (resetEvent s) where
  code := by simp [State.reset]
  busyDone := by simp [State.reset]
  idle _ := ⟨rfl, rfl, rfl⟩
  running h := by simp [State.reset] at h
  results := ⟨rfl, by simp [State.reset], List.Pairwise.nil⟩

/-- The invariant does not speak of the events still to happen. -/
theorem inv_inputs {s : State} (hi : Inv s) (es : List Event) : Inv { s with inputs := es } :=
  inv_of_sameCommand hi rfl hi.code hi.busyDone

end Sys2Proof.Machine
end

