-- ==== Sys2Proof/Laws/PerInstr.lean ====
section
/-! SUPPORT. Statements made for every command, one lemma per constructor. -/

namespace Sys2Proof.Laws.EncodedFields

/-- The word of a command, as a number, is its opcode (30_encoding.md R81) in bits 3 to 0 and its worker count in bits 26
to 16, and every reserved bit of it is 0 (R80, R82). -/
def Statement (i : Instr) : Prop :=
  (encode i).toNat % 16 = (opcodeValue i.opcode).toNat ∧ (encode i).toNat / 16 % 4096 = 0 ∧
  (encode i).toNat / 65536 % 2048 = i.nw.toNat ∧ (encode i).toNat / 134217728 = 0

theorem encrypt : Statement .encrypt := by unfold Statement; decide

theorem decrypt : Statement .decrypt := by unfold Statement; decide

theorem keysched : Statement .keysched := by unfold Statement; decide

theorem search (nw : Count) : Statement (.search nw) := by
  have h := Machine.encode_toNat (.search nw)
  have hn := nw.isLt
  have ho : (opcodeValue (Instr.search nw).opcode).toNat = 4 := rfl
  have hw : (Instr.search nw).nw.toNat = nw.toNat := rfl
  rw [ho, hw] at h
  unfold Statement
  rw [ho, hw, h]
  omega

end Sys2Proof.Laws.EncodedFields
end

