-- ==== Sys2Proof/Laws/Primitives.lean ====
section
/-! SUPPORT. The sequences of 40_primitives.md, element by element: what the
definitions of Machine/Primitives.lean are made of. -/

namespace Sys2Proof.Machine

/-- The bits of the number an element list builds, most significant element first. -/
theorem foldl_bits_testBit (bs : List Bool) (v j : Nat) (h : j < bs.length) :
    (bs.foldl (fun v b => 2 * v + b.toNat) v).testBit (bs.length - 1 - j) = bs[j] := by
  induction bs using List.reverseRecOn generalizing j with
  | nil => simp at h
  | append_singleton bs b ih =>
    simp only [List.foldl_append, List.foldl_cons, List.foldl_nil, List.length_append, List.length_singleton]
    simp only [List.length_append, List.length_singleton] at h
    rcases Nat.lt_or_ge j bs.length with hj | hj
    · have e : bs.length + 1 - 1 - j = (bs.length - 1 - j) + 1 := by omega
      rw [e, Nat.testBit_succ]
      have hb : b.toNat ≤ 1 := Bool.toNat_le b
      rw [show (2 * bs.foldl (fun v b => 2 * v + b.toNat) v + b.toNat) / 2 =
        bs.foldl (fun v b => 2 * v + b.toNat) v by omega]
      rw [ih j hj, List.getElem_append_left hj]
    · have : j = bs.length := by omega
      subst this
      simp only [Nat.add_sub_cancel, Nat.sub_self, Nat.testBit_zero]
      rw [List.getElem_append_right (by omega)]
      cases b <;> simp

/-- Position j of a sequence built from its elements is its j-th element (00_scope.md R12). -/
theorem bit_ofBits {m : Nat} (bs : List Bool) (hm : bs.length = m) (j : Nat) (h1 : 1 ≤ j) (h2 : j ≤ m) :
    bit (ofBits m bs) j = bs[j - 1]'(by omega) := by
  subst hm
  unfold bit ofBits
  rw [BitVec.getLsbD_ofNat]
  have e : bs.length - j = bs.length - 1 - (j - 1) := by omega
  rw [e, foldl_bits_testBit bs 0 (j - 1) (by omega)]
  simp; omega

/-- Sequences with the same elements are equal (00_scope.md R10). -/
theorem eq_of_bits {n : Nat} {s t : BitVec n} (h : ∀ j, 1 ≤ j → j ≤ n → bit s j = bit t j) : s = t := by
  apply BitVec.eq_of_getLsbD_eq
  intro i hi
  have := h (n - i) (by omega) (by omega)
  simpa [bit, show n - (n - i) = i by omega] using this

/-- Exclusive-or, element by element (40_primitives.md R104). -/
theorem bit_xor {n : Nat} (a b : BitVec n) (j : Nat) : bit (a ^^^ b) j = (bit a j ^^ bit b j) := by simp [bit]

/-- s = left(s) ‖ right(s) for a block (40_primitives.md R105). -/
theorem left_append_right (x : BitVec 8) : left 4 x ++ right 4 x = x := by
  unfold left right; ext i; simp; grind

/-- The left half of L ‖ R. -/
theorem left_append (a b : Half) : left 4 (a ++ b) = a := by
  unfold left; ext i; simp; grind

/-- The right half of L ‖ R. -/
theorem right_append (a b : Half) : right 4 (a ++ b) = b := by
  unfold right; ext i; simp; grind

/-- The left half of two joined key halves. -/
theorem left5_append (a b : KeyHalf) : left 5 (a ++ b) = a := by
  unfold left; ext i; simp; grind

/-- The right half of two joined key halves. -/
theorem right5_append (a b : KeyHalf) : right 5 (a ++ b) = b := by
  unfold right; ext i; simp; grind

/-- The elements of two joined key halves. -/
theorem bit_append5 (a b : KeyHalf) (j : Nat) (h1 : 1 ≤ j) (h2 : j ≤ 10) :
    bit (a ++ b) j = if j ≤ 5 then bit a j else bit b (j - 5) := by
  unfold bit
  rw [BitVec.getLsbD_append]
  split <;> split <;> first | omega | (congr 1; omega)

/-- The elements of the left half of a permuted key. -/
theorem bit_left5 (x : BitVec 10) (j : Nat) (h1 : 1 ≤ j) (h2 : j ≤ 5) : bit (left 5 x) j = bit x j := by
  unfold bit left
  rw [BitVec.getLsbD_extractLsb']
  have : 5 + (5 - j) = 10 - j := by omega
  simp [this]; omega

/-- The elements of the right half of a permuted key. -/
theorem bit_right5 (x : BitVec 10) (j : Nat) (h1 : 1 ≤ j) (h2 : j ≤ 5) : bit (right 5 x) j = bit x (j + 5) := by
  unfold bit right
  rw [BitVec.getLsbD_extractLsb']
  have : 0 + (5 - j) = 10 - (j + 5) := by omega
  rw [this]; simp; omega

end Sys2Proof.Machine
end

