-- ==== Sys2Proof/Tests/Slice0.lean ====
section
/-! SUPPORT. The model's own tests, each named after the vector of 95_test_vectors.md or the rule its expected value is
taken from, and a witness for the hypotheses of every statement. -/

namespace Sys2Proof.Tests

open Sys2Proof.Machine

/-- The next state of an outcome, if it has one. -/
def after (o : Host.Outcome State Fault Refusal) : Option State :=
  match o with
  | .next t => some t
  | .fault _ => none
  | .refused _ => none

/-- What one host access answers, from the state after reset. -/
def answer (a : Access) (s : State := State.reset) : Option Response := (after (hostAccess a s)).bind fun t => t.resp

/-! ## Well-formedness -/

theorem test_wf_refuses_search_without_workers : (Instr.search 0).wf = false := by decide

theorem test_wf_refuses_search_with_too_many_workers : (Instr.search 1025).wf = false ∧ (Instr.search 2047).wf = false := by
  decide

theorem test_wf_admits_the_legal_counts : (Instr.search 1).wf = true ∧ (Instr.search 1024).wf = true := by decide

/-- R102, R106: each constraint refuses a record that breaks it alone. -/
theorem test_tables_refused :
    tablesWf { tablesOf .A with p10 := [3, 5, 2, 7, 4, 11, 1, 9, 8, 6] } = false ∧
    tablesWf { tablesOf .A with p8 := [6, 3, 7, 4, 8, 5, 10, 10] } = false ∧
    tablesWf { tablesOf .A with ip := [2, 6, 3, 1, 4, 8, 5, 5] } = false ∧
    tablesWf { tablesOf .A with ipInv := [4, 1, 3, 5, 7, 2, 6, 8] } = false ∧
    tablesWf { tablesOf .A with ep := [4, 1, 2, 2, 2, 2, 4, 1] } = false ∧
    tablesWf { tablesOf .A with p4 := [2, 4, 3, 0] } = false ∧
    tablesWf { tablesOf .A with s0 := [[1, 0, 3, 2], [3, 2, 1, 0], [0, 2, 1, 3], [3, 1, 4, 2]] } = false ∧
    tablesWf { tablesOf .A with s1 := [[0, 1, 2, 3], [2, 3, 1, 0], [3, 0, 1, 2]] } = false := by decide +kernel

theorem test_tables_admitted : tablesWf (tablesOf .A) = true ∧ tablesWf (tablesOf .B) = true := by decide +kernel

/-! ## Decode: words written out from 30_encoding.md R80, R81 (V60) -/

theorem test_decode_encrypt : decode 0b00000_00000000000_000000000000_0001#32 = .accept .encrypt := by decide

theorem test_decode_decrypt : decode 0b00000_00000000000_000000000000_0010#32 = .accept .decrypt := by decide

theorem test_decode_keysched : decode 0b00000_00000000000_000000000000_0011#32 = .accept .keysched := by decide

theorem test_decode_search :
    decode 0b00000_00000000001_000000000000_0100#32 = .accept (.search 1) ∧
    decode 0b00000_10000000000_000000000000_0100#32 = .accept (.search 1024) ∧
    decode 0b00000_01010110011_000000000000_0100#32 = .accept (.search 0x2B3) := by decide

theorem test_decode_illegal :
    [0x00000000#32, 0x00000005, 0x0000000F, 0x00000010, 0x00000014, 0x00008000, 0x08000001, 0x80000004, 0x00010001,
      0x00030003].map decode = List.replicate 10 (.illegal .illegalCmd) := by decide

theorem test_decode_bad_arg :
    [0x00000004#32, 0x04010004, 0x07FF0004].map decode = List.replicate 3 (.illegal .badArg) := by decide

theorem test_encode : encode .encrypt = 0x00000001 ∧ encode .decrypt = 0x00000002 ∧ encode .keysched = 0x00000003 ∧
    encode (.search 2) = 0x00020004 := by decide

theorem test_table_words : decodeTableWord 32 0x1 = some .encrypt ∧ decodeTableWord 32 0x2 = some .decrypt ∧
    decodeTableWord 32 0x3 = some .keysched ∧ decodeTableWord 32 0x00030004 = some (.search 3) ∧
    decodeTableWord 32 0x4 = none := by decide

/-! ## Primitives, key schedule, cipher -/

/-- The examples of R101 and R103, and V11. -/
theorem test_perm_and_rol :
    (perm 8 (tablesOf .A).ip 0b10110000#8 : Block) = 0b00111000 ∧ (perm 8 (tablesOf .A).ipInv 0b01010101#8 : Block) = 0b10000111 ∧
    rol 0b10110#5 1 = 0b01101 ∧ rol 0b01100#5 1 = 0b11000 := by decide

/-- V21, all 16 inputs of both tables in both variants. -/
theorem test_slook :
    (List.range 16).map (fun h => (sLook (tableS0 .A) (BitVec.ofNat 4 h)).toNat) = [1, 3, 0, 2, 3, 1, 2, 0, 0, 3, 2, 1, 1, 0, 3, 2] ∧
    (List.range 16).map (fun h => (sLook (tableS0 .B) (BitVec.ofNat 4 h)).toNat) = [1, 3, 0, 2, 3, 1, 2, 0, 0, 3, 2, 1, 1, 3, 3, 2] ∧
    (List.range 16).map (fun h => (sLook (tableS1 .A) (BitVec.ofNat 4 h)).toNat) = [0, 2, 1, 3, 2, 1, 3, 0, 3, 2, 0, 1, 1, 0, 2, 3] ∧
    (List.range 16).map (fun h => (sLook (tableS1 .B) (BitVec.ofNat 4 h)).toNat) = [0, 2, 1, 0, 2, 1, 3, 3, 3, 2, 0, 1, 1, 0, 0, 3] := by
  decide +kernel

/-- V23 and V24: rows that tell the halves, the variants and the order of P4 apart. -/
theorem test_sub_and_round :
    sub (tablesOf .A) 0b11010000 = 0b0000 ∧ sub (tablesOf .B) 0b11010000 = 0b1100 ∧ sub (tablesOf .A) 0b00000011 = 0b0111 ∧
    roundF (tablesOf .A) 0b1000 0b10100100 = 0b1101 ∧ roundF (tablesOf .A) 0b0101 0b00000000 = 0b0001 ∧
    roundF (tablesOf .A) 0b0001 0b00001111 = 0b0000 := by decide +kernel

/-- V10. -/
theorem test_key_schedule :
    keySchedule (tablesOf .A) 0x282 = (0xA4, 0x92) ∧ keySchedule (tablesOf .A) 0x001 = (0x02, 0x01) ∧
    keySchedule (tablesOf .A) 0x1FF = (0x7F, 0xFD) ∧ keySchedule (tablesOf .A) 0x333 = (0xA3, 0x8F) := by decide +kernel

/-- V1, V42: encryption. -/
theorem test_encrypt :
    encrypt (tablesOf .A) 0xB0 0x282 = 0xBD ∧ encrypt (tablesOf .B) 0xBD 0x282 = 0xF1 ∧
    encrypt (tablesOf .A) 0xF0 0x01F = 0x7A ∧ encrypt (tablesOf .B) 0xF0 0x01F = 0x5A := by decide +kernel

/-- V42: decryption. -/
theorem test_decrypt :
    decrypt (tablesOf .A) 0xBD 0x282 = 0xB0 ∧ decrypt (tablesOf .A) 0xB0 0x282 = 0x23 ∧
    decrypt (tablesOf .B) 0xAA 0x155 = 0x21 ∧ decrypt (tablesOf .B) 0x80 0x200 = 0x97 := by decide +kernel

/-- V43: the working registers after each phase of DECRYPT, DIN = 0xBD, KEY = 0x282. -/
theorem test_phases :
    laneKS (tablesOf .A) .decrypting 0x282 Lane.reset = ⟨0, 0, 0b10010010, 0b10100100⟩ ∧
    laneIP (tablesOf .A) 0xBD ⟨0, 0, 0b10010010, 0b10100100⟩ = ⟨0b0111, 0b1110, 0b10010010, 0b10100100⟩ ∧
    laneR1 (tablesOf .A) ⟨0b0111, 0b1110, 0b10010010, 0b10100100⟩ = ⟨0b1000, 0b1110, 0b10010010, 0b10100100⟩ ∧
    laneSW ⟨0b1000, 0b1110, 0b10010010, 0b10100100⟩ = ⟨0b1110, 0b1000, 0b10010010, 0b10100100⟩ ∧
    laneR2 (tablesOf .A) ⟨0b1110, 0b1000, 0b10010010, 0b10100100⟩ = ⟨0b0011, 0b1000, 0b10010010, 0b10100100⟩ ∧
    laneFP (tablesOf .A) ⟨0b0011, 0b1000, 0b10010010, 0b10100100⟩ = 0xB0 := by decide +kernel

/-! ## Search -/

/-- V7: the ranges for N = 3 and the last of N = 7 and N = 1000. -/
theorem test_partition :
    (List.range 3).map (fun w => (partLo 3 w, partHi 3 w)) = [(0, 341), (341, 682), (682, 1024)] ∧
    (partLo 7 6, partHi 7 6) = (876, 1024) ∧ (partLo 1000 999, partHi 1000 999) = (999, 1024) := by decide

/-- V52: what worker 1 of 3 finds about 0x282, and worker 2 about 0x382. -/
theorem test_matches :
    matchesIn (tablesOf .A) 0xB0 0xBD 0x280 0x284 = [0x282] ∧ matchesIn (tablesOf .B) 0xB0 0xBD 0x381 0x383 = [0x382] := by
  decide +kernel

/-- R194: a round takes a match, passes over another candidate, and stops at the end of the range. -/
theorem test_worker :
    (Worker.advance (tablesOf .A) 0xB0 0xBD ⟨341, 682, 0x282, [], false, Lane.reset⟩).lb = [0x282] ∧
    (Worker.advance (tablesOf .A) 0xB0 0xBD ⟨341, 682, 0x281, [], false, Lane.reset⟩).lb = [] ∧
    (Worker.advance (tablesOf .A) 0xB0 0xBD ⟨341, 682, 0x281, [], false, Lane.reset⟩).i = 0x282 ∧
    Worker.advance (tablesOf .A) 0xB0 0xBD ⟨341, 682, 682, [5], false, Lane.reset⟩ = ⟨341, 682, 682, [5], true, Lane.reset⟩ := by
  decide +kernel

/-! ## The commands: one step each -/

/-- P1: STATUS reads 1 after the write of ENCRYPT; the snapshots are taken. -/
theorem test_step_encrypt :
    (after (step ({ State.reset with din := 0xB0, key := 0x282 }.withFetchWord 32 0x1))).map
      (fun t => (statusWord t, t.opl, t.pin, t.kin, t.ph)) = some (0x1, some .encrypt, 0xB0, 0x282, .ks) := by decide

theorem test_step_decrypt :
    (after (step (State.reset.withFetchWord 32 0x2))).map (fun t => (statusWord t, t.opl, t.ph, t.inputs.length)) =
      some (0x1, some .decrypt, .ks, 0) := by decide

theorem test_step_keysched :
    (after (step (State.reset.withFetchWord 32 0x3))).map (fun t => (statusWord t, t.opl, t.ph)) =
      some (0x1, some .keysched, .ks) := by decide

/-- V52, R198: the workers of SEARCH 3. -/
theorem test_step_search :
    (after (step ({ State.reset with tgt := 0xBD }.withFetchWord 32 0x00030004))).map
      (fun t => (t.opl, t.nwl, t.tin, t.workers.map fun w => (w.lo, w.hi))) =
      some (some .search, 3, 0xBD, [(0, 341), (341, 682), (682, 1024)]) := by decide

/-- P1: the completion of ENCRYPT, in both variants (V1 reads no entry in which they differ). -/
theorem test_complete_encrypt :
    (after (complete (started .encrypt { State.reset with din := 0xB0, key := 0x282 }))).map
      (fun t => (t.dout, statusWord t, t.ph)) = some (0xBD, 0x2, .idle) := by decide +kernel

/-- P1: the completion of DECRYPT. -/
theorem test_complete_decrypt :
    (after (complete (started .decrypt { State.reset with din := 0xBD, key := 0x282 }))).map
      (fun t => (t.dout, statusWord t)) = some (0xB0, 0x2) := by decide +kernel

/-- P2: the completion of KEYSCHED. -/
theorem test_complete_keysched :
    (after (complete (started .keysched { State.reset with key := 0x282, dout := 0x77 }))).map
      (fun t => (t.subkey, t.dout, statusWord t)) = some (0x92A4, 0x77, 0x2) := by decide +kernel

/-- R195, R198, R196: the aggregator waits for the workers, and after the join publishes their buffers in worker order. -/
theorem test_merge :
    (moveMerge { State.reset with busy := true, opl := some .search, workers := [⟨0, 1, 1, [0], false, Lane.reset⟩] }).busy = true ∧
    (fun t => (t.res, t.rcount, t.busy, t.done)) (moveMerge { State.reset with
        busy := true, opl := some .search, mergePos := 2
        workers := [⟨0, 512, 512, [0x06D, 0x16D], true, Lane.reset⟩, ⟨512, 1024, 1024, [0x282, 0x382], true, Lane.reset⟩] }) =
      ([0x06D, 0x16D, 0x282, 0x382], 4, false, true) := by decide

/-! ## Errors, the register window, the interrupt line, reset -/

/-- V61, P4: STATUS after errors and a clear. -/
theorem test_errors :
    (after (command 0x4 State.reset)).map statusWord = some 0x24 ∧
    (after (command 0x0 { State.reset with err := true, ecode := 2 })).map statusWord = some 0x24 ∧
    (after (hostAccess (wr .status 0x4) { State.reset with err := true, ecode := 2 })).map statusWord = some 0x00 ∧
    (after (command 0x0 State.reset)).map statusWord = some 0x14 ∧
    (after (hostAccess (wr .key 0x3FF) { State.reset with busy := true })).map (fun t => (statusWord t, t.key)) =
      some (0x35, 0x000) := by decide

/-- V70: the accesses that answer BusError. -/
theorem test_bus_errors :
    [rd .cmd, wr .id 0, wr .dout 0, wr .subkey 0, wr .rcount 0, wrAt 0x1000 .word 0, rdAt 0x028 .word, rdAt 0xFFC .word,
      rdAt 0x011 .word, wrAt 0x010 .half 0x12, rdAt 0x010 .byte, wrAt 0x000 .half 0x1].map (fun a => answer a) =
    [0x000, 0x00C, 0x01C, 0x020, 0x024, 0x1000, 0x028, 0xFFC, 0x011, 0x010, 0x010, 0x000].map
      (fun off => some (.busError off)) := by decide

/-- V70: the accesses that pass, with reserved bits dropped. -/
theorem test_window :
    answer (rd .id) = some (.data 0x53444553) ∧
    (after (hostAccess (wr .din 0x1FF) State.reset)).bind (fun t => answer (rd .din) t) = some (.data 0xFF) ∧
    (after (hostAccess (wr .key 0xFFFFFFFF) State.reset)).bind (fun t => answer (rd .key) t) = some (.data 0x3FF) ∧
    (after (hostAccess (wr .tgt 0xABCD) State.reset)).bind (fun t => answer (rd .tgt) t) = some (.data 0xCD) ∧
    (after (hostAccess (wr .irqen 0xFFFFFFFF) State.reset)).bind (fun t => answer (rd .irqen) t) = some (.data 0x3) ∧
    (after (hostAccess (wr .status 0x1) State.reset)).map statusWord = some 0 := by decide

/-- P3: RES reads below RCOUNT; the word of SUBKEY is K2 above K1. -/
theorem test_results_read :
    answer (rdres 3) { State.reset with rcount := 4, res := [0x06D, 0x16D, 0x282, 0x382] } = some (.data 0x382) ∧
    answer (rd .rcount) { State.reset with rcount := 4 } = some (.data 4) ∧
    answer (rd .subkey) { State.reset with subkey := 0x92A4 } = some (.data 0x92A4) := by decide

/-- R56, R275: a read of RCOUNT while a SEARCH runs answers the next free value and counts it. -/
theorem test_unspecified_read :
    (after (hostAccess (rd .rcount) { State.reset with busy := true, opl := some .search, rcount := 4, draws := 7 })).map
      (fun t => (t.resp, t.draws, t.rcount)) = some (some (.data ((Config.anyCount 7).setWidth 32)), 8, 4) := rfl

/-- V80. -/
theorem test_irq : ∀ d e i j : Bool,
    irq { State.reset with done := d, err := e, doneie := i, errie := j } = ((d && i) || (e && j)) := by decide

/-- P8: a reset while ENCRYPT runs. -/
theorem test_reset :
    (after (event .reset (started .encrypt { State.reset with din := 0xB0, key := 0x282 }))).map
      (fun t => (statusWord t, t.dout, t.din, t.opl, t.ph)) = some (0, 0, 0, none, .idle) := by decide

/-! ## Witnesses: states and operands that meet the hypotheses of each statement that has some -/

/-- A core that has just taken a command, from the state after reset with some operands. -/
def running (i : Instr) : State := started i { State.reset with din := 0xB0, key := 0x282, tgt := 0xBD }

theorem running_inv (i : Instr) (h : i.wf = true) : Inv (running i) :=
  inv_started (s := { State.reset with din := 0xB0, key := 0x282, tgt := 0xBD })
    (inv_of_sameCommand (inv_resetEvent State.reset) rfl (by decide) (by decide)) rfl i h

/-- A core that holds a result of two keys, idle. -/
def resulted : State := { State.reset with rcount := 2, res := [0x282, 0x382], done := true }

theorem resulted_inv : Inv resulted where
  code := by decide
  busyDone := by decide
  idle _ := ⟨rfl, rfl, rfl⟩
  running h := by cases h
  results := by decide

/-- A search with every worker at the join. -/
def joinedOf (s : State) : State :=
  { s with workers := s.workers.map (Worker.finish coreTables (blockOperand s) (targetOperand s)) }

theorem joinedOf_searchInv {s : State} (h : searchInv s) (hm : s.mergePos = 0) : searchInv (joinedOf s) where
  count := h.count
  ranges := by
    refine Eq.trans ?_ h.ranges
    simp [joinedOf, Worker.finish]
  each w hw := by
    obtain ⟨v, hv, rfl⟩ := List.mem_map.1 hw
    exact rounds_workerInv (v.hi - v.i + 1) (h.each v hv)
  position := by simp [joinedOf, hm]
  joined h0 := by simp [joinedOf, hm] at h0

/-- A SEARCH 1 whose worker has come to the join. -/
def joined : State := joinedOf (running (.search 1))

theorem joined_inv : Inv joined := by
  have hi := running_inv (.search 1) rfl
  exact inv_of_silent hi rfl ⟨_, _, _, _, rfl⟩ ⟨rfl, joinedOf_searchInv (hi.running rfl).2 rfl⟩

theorem witness_StepRunsTheDecodedCommand : ∃ (s : State) (w : BusWord) (i : Instr) (rest : List Event),
    s.inputs = .access (.write 0x000 .word w) :: rest ∧ decode w = .accept i :=
  ⟨State.reset.withFetchWord 32 0x04000004, 0x04000004, .search 1024, [], by decide⟩

theorem witness_StepTakesTheNextEvent :
    (∃ (s : State) (e : Event) (rest : List Event), s.inputs = e :: rest) ∧
    (∃ s : State, s.inputs = [] ∧ s.busy = false) ∧ ∃ s : State, s.inputs = [] ∧ s.busy = true :=
  ⟨⟨State.reset.withFetchWord 32 1, _, _, rfl⟩, ⟨State.reset, by decide⟩, ⟨running .encrypt, by decide⟩⟩

/-- An idle core, with an earlier result and DONE = 1. -/
theorem witness_EncryptIsAcceptedAndCompletes : ∃ s : State, s.busy = false := ⟨resulted, rfl⟩

theorem witness_DecryptIsAcceptedAndCompletes : ∃ s : State, s.busy = false := ⟨resulted, rfl⟩

theorem witness_KeyschedIsAcceptedAndCompletes : ∃ s : State, s.busy = false := ⟨State.reset, rfl⟩

theorem witness_SearchIsAcceptedAndCompletes :
    (∃ (s : State) (nw : Count), s.busy = false ∧ 1 ≤ nw.toNat ∧ nw.toNat ≤ 1024) ∧
    (∃ nw : Count, nw.toNat = 1) ∧ ∃ nw : Count, nw.toNat = 1024 :=
  ⟨⟨State.reset, 1024, by decide⟩, ⟨1, rfl⟩, ⟨1024, rfl⟩⟩

theorem witness_CommandsWhileBusyAreDropped : ∃ s : State, s.busy = true := ⟨running .keysched, rfl⟩

theorem witness_SearchCountOutOfRangeIsDropped :
    (∃ (nw : Count) (s : State), s.busy = false ∧ nw.toNat = 0) ∧
    (∃ (nw : Count) (s : State), s.busy = false ∧ 1024 < nw.toNat) ∧ ∃ nw : Count, nw.toNat = 2047 :=
  ⟨⟨0, State.reset, by decide⟩, ⟨1025, State.reset, by decide⟩, ⟨2047, rfl⟩⟩

theorem witness_CmdWriteAcceptsOrDrops :
    (∃ s : State, s.busy = true) ∧
    (∃ (w : BusWord) (s : State) (code : CmdError), s.busy = false ∧ decode w = .illegal code) ∧
    (∃ (w : BusWord) (s : State) (i : Instr), s.busy = false ∧ decode w = .accept i ∧ i.opcode ≠ .search) ∧
    ∃ (w : BusWord) (s : State) (nw : Count), s.busy = false ∧ decode w = .accept (.search nw) :=
  ⟨⟨running .encrypt, rfl⟩, ⟨0x4, State.reset, .badArg, by decide⟩, ⟨0x3, State.reset, .keysched, by decide⟩,
    ⟨0x00010004, State.reset, 1, by decide⟩⟩

theorem witness_CmdWriteErrorPriority :
    (∃ s : State, s.busy = true) ∧
    (∃ (w : BusWord) (s : State), s.busy = false ∧ w.toNat / 134217728 ≠ 0 ∧ w.toNat % 16 = 4) ∧
    (∃ (w : BusWord) (s : State), s.busy = false ∧ w.toNat / 16 % 4096 ≠ 0) ∧
    (∃ (w : BusWord) (s : State), s.busy = false ∧ w.toNat % 16 = 0) ∧
    (∃ (w : BusWord) (s : State), s.busy = false ∧ 4 < w.toNat % 16) ∧
    (∃ (w : BusWord) (s : State), s.busy = false ∧ w.toNat % 16 ≠ 4 ∧ w.toNat / 65536 % 2048 ≠ 0) ∧
    (∃ (w : BusWord) (s : State), s.busy = false ∧ w.toNat / 16 % 4096 = 0 ∧ w.toNat / 134217728 = 0 ∧
      w.toNat % 16 = 4 ∧ w.toNat / 65536 % 2048 = 0) ∧
    ∃ (w : BusWord) (s : State), s.busy = false ∧ w.toNat / 16 % 4096 = 0 ∧ w.toNat / 134217728 = 0 ∧
      w.toNat % 16 = 4 ∧ w.toNat / 65536 % 2048 = 1025 :=
  ⟨⟨running .encrypt, rfl⟩, ⟨0x80000004, State.reset, by decide⟩, ⟨0x00000014, State.reset, by decide⟩,
    ⟨0x0, State.reset, by decide⟩, ⟨0x5, State.reset, by decide⟩, ⟨0x00010001, State.reset, by decide⟩,
    ⟨0x4, State.reset, by decide⟩, ⟨0x04010004, State.reset, by decide⟩⟩

theorem witness_ErrorsNestAndTheFirstIsKept :
    (∃ s : State, s.err = false) ∧ (∃ s : State, s.err = true) ∧
    ∃ s t : State, Inv s ∧ s.busy = true ∧ coreMove .complete s = .next t :=
  ⟨⟨State.reset, rfl⟩, ⟨raiseCmdError .badArg State.reset, rfl⟩, ⟨running .keysched, _, running_inv _ rfl, rfl, rfl⟩⟩

/-- A write of KEY while BUSY = 1, a command among the other accesses. -/
theorem witness_HostAccessesLeaveTheRunningCommandAlone : ∃ (a : Access) (s t : State),
    s.busy = true ∧ hostAccess a s = .next t := ⟨wr .key 0x3FF, running .encrypt, _, rfl, rfl⟩

theorem witness_BusErrorChangesNothing :
    (∃ size : Size, size ≠ .word) ∧ (∃ off : Offset, off.toNat % 4 ≠ 0) ∧ (∃ off : Offset, off.toNat = 0x028) ∧
    (∃ off : Offset, off.toNat = 0xFFC) ∧ (∃ off : Offset, off.toNat = 0x000) ∧ (∃ off : Offset, off.toNat = 0x024) ∧
    (∃ off : Offset, off.toNat = 0x1000) ∧ ∃ off : Offset, off.toNat = 0x1FFC :=
  ⟨⟨.half, by decide⟩, ⟨0x011, by decide⟩, ⟨0x028, rfl⟩, ⟨0xFFC, rfl⟩, ⟨0x000, rfl⟩, ⟨0x024, rfl⟩, ⟨0x1000, rfl⟩,
    ⟨0x1FFC, rfl⟩⟩

theorem witness_ReadsReturnTheRegisters :
    (∃ s : State, ¬(s.busy = true ∧ s.opl = some .search)) ∧ (∃ s : State, s.busy = true ∧ s.opl = some .search) ∧
    (∃ (s : State) (n : Nat), n < 1024 ∧ Inv s ∧ ¬(s.busy = true ∧ s.opl = some .search) ∧ n + 1 = s.rcount.toNat) ∧
    ∃ (s : State) (n : Nat), n < 1024 ∧ s.rcount.toNat = n :=
  ⟨⟨resulted, by decide⟩, ⟨running (.search 1), by decide⟩, ⟨resulted, 1, by decide, resulted_inv, by decide, rfl⟩,
    ⟨resulted, 2, by decide⟩⟩

theorem witness_WritesFollowTheMap :
    (∃ (s : State) (off : Offset), s.busy = true ∧ off = 0x010) ∧ (∃ (s : State) (off : Offset), s.busy = true ∧ off = 0x014) ∧
    (∃ (s : State) (off : Offset), s.busy = true ∧ off = 0x018) ∧ ∃ s : State, s.busy = false :=
  ⟨⟨running .encrypt, _, rfl, rfl⟩, ⟨running .encrypt, _, rfl, rfl⟩, ⟨running .encrypt, _, rfl, rfl⟩, ⟨State.reset, rfl⟩⟩

theorem witness_ReservedBitsReadZero :
    ∃ s : State, regValue .din s = some 0xFF ∧ regValue .key s = some 0x3FF ∧ regValue .tgt s = some 0xFF ∧
      regValue .dout s = some 0xFF ∧ regValue .subkey s = some 0xFFFF ∧ regValue .rcount s = some 1 ∧
      regValue (.res 0) s = some 0x3FF ∧ regValue .status s = some 0x36 ∧ regValue .irqen s = some 3 :=
  ⟨{ State.reset with
      din := 0xFF, key := 0x3FF, tgt := 0xFF, dout := 0xFF, subkey := 0xFFFF, rcount := 1, res := [0x3FF]
      err := true, done := true, ecode := 3, doneie := true, errie := true }, by decide⟩

theorem witness_InterruptLineLevel : ∃ (i : Instr) (s t : State), s.busy = false ∧ i.wf = true ∧ exec i s = .next t ∧
    irq s = true :=
  ⟨.encrypt, { resulted with doneie := true }, _, rfl, rfl, rfl, by decide⟩

theorem witness_ResetPutsEveryRegisterBack : ∃ i : Instr, i.wf = true := ⟨.search 1024, rfl⟩

theorem witness_PermTakesListedPositions :
    (∃ (m : Nat) (T : List Nat) (i j : Nat), T.length = m ∧ i = 1 ∧ i ≤ m ∧ T[i - 1]? = some j) ∧
    ∃ (m : Nat) (T : List Nat) (i j : Nat), T.length = m ∧ 1 ≤ i ∧ i = m ∧ T[i - 1]? = some j :=
  ⟨⟨8, [6, 3, 7, 4, 8, 5, 10, 9], 1, 6, by decide⟩, ⟨8, [6, 3, 7, 4, 8, 5, 10, 9], 8, 9, by decide⟩⟩

theorem witness_RotationLaws : ∃ n i : Nat, i < n ∧ i + 1 = n := ⟨5, 4, by decide⟩

theorem witness_SboxLookupPicksRowAndColumn : ∃ (S : List (List Nat)) (h : Half) (row : List Nat) (v : Nat),
    isSbox S = true ∧ S[2 * (bit h 1).toNat + (bit h 4).toNat]? = some row ∧
    row[2 * (bit h 2).toNat + (bit h 3).toNat]? = some v :=
  ⟨tableS0 .B, 0b1101, [3, 1, 3, 2], 3, by decide⟩

theorem witness_DecryptUndoesEncrypt :
    undoes (tablesOf .A).ipInv (tablesOf .A).ip = true ∧ undoes (tablesOf .B).ipInv (tablesOf .B).ip = true := by
  decide +kernel

theorem witness_PhasesComputeTheCipher :
    (∃ s : State, s.busy = true ∧ s.ph = .ks ∧ s.opl = some .encrypt) ∧
    (∃ s : State, s.busy = true ∧ s.ph = .ks ∧ s.opl = some .decrypt) ∧ ∃ n : Nat, n < 6 ∧ n = 5 :=
  ⟨⟨running .encrypt, by decide⟩, ⟨running .decrypt, by decide⟩, 5, by decide⟩

theorem witness_PartitionCoversEachCandidateOnce :
    (∃ n w : Nat, n = 1 ∧ w < n) ∧ (∃ n w : Nat, n = 1024 ∧ w + 1 < n ∧ w = 1022) ∧ (∃ i : Nat, i < 1024 ∧ i = 1023) ∧
    ∃ n v i : Nat, v < n ∧ partLo n v ≤ i ∧ i < partHi n v ∧ n = 3 ∧ i = 682 :=
  ⟨⟨1, 0, by decide⟩, ⟨1024, 1022, by decide⟩, ⟨1023, by decide⟩, ⟨3, 2, 682, by decide⟩⟩

theorem witness_MergedBuffersAreTheWholeSearch : ∃ s : State,
    Inv s ∧ s.busy = true ∧ s.opl = some .search ∧ allFin s = true := by
  refine ⟨joined, joined_inv, rfl, rfl, ?_⟩
  simp only [allFin, List.all_eq_true]
  intro w hw
  obtain ⟨v, _, rfl⟩ := List.mem_map.1 hw
  exact rounds_fin _ _ _ _ _ (Nat.lt_succ_self _)

theorem witness_EveryStepKeepsTheInvariant : ∃ s t : State, Inv s ∧ step s = .next t :=
  ⟨running .keysched, _, running_inv _ rfl, rfl⟩

theorem witness_InvariantStatesNeverStop : ∃ s : State, Inv s ∧ s.busy = true := ⟨running (.search 1024), running_inv _ rfl, rfl⟩

/-- One state for each command in the latch. -/
theorem witness_CompletionPublishesTheResult : ∀ op : Opcode, ∃ s : State, Inv s ∧ s.busy = true ∧ s.opl = some op
  | .encrypt => ⟨running .encrypt, running_inv _ rfl, rfl, rfl⟩
  | .decrypt => ⟨running .decrypt, running_inv _ rfl, rfl, rfl⟩
  | .keysched => ⟨running .keysched, running_inv _ rfl, rfl, rfl⟩
  | .search => ⟨running (.search 2), running_inv _ rfl, rfl, rfl⟩

theorem witness_IdleCoreDoesNotMove : ∃ s : State, s.busy = false := ⟨resulted, rfl⟩

theorem witness_InternalMovesDoNotShow : ∃ (ms : List CoreMove) (s : State),
    Inv s ∧ s.busy = true ∧ (∀ m ∈ ms, isInternal m = true) ∧ ms.length = 3 :=
  ⟨[.worker 1, .phase, .merge], running (.search 2), running_inv _ rfl, rfl, by decide, rfl⟩

/-- Two runs of ENCRYPT on the same snapshots that differ in an earlier result and in how far they have come. -/
theorem witness_ResultsDependOnSnapshotsOnly : ∃ s t : State, Inv s ∧ Inv t ∧ s.busy = true ∧ t.busy = true ∧
    s.opl = t.opl ∧ s.pin = t.pin ∧ s.kin = t.kin ∧ s.tin = t.tin ∧ s.ph ≠ t.ph ∧ s.opl = some .encrypt := by
  have h := running_inv .encrypt rfl
  have hn : noSearch (running .encrypt) := (h.running rfl).2
  exact ⟨running .encrypt, phaseKS .encrypting (running .encrypt), h,
    inv_of_silent h rfl ⟨_, _, _, _, rfl⟩ ⟨phaseKS_inv _ _, hn⟩, rfl, rfl, rfl, rfl, rfl, rfl, by decide, rfl⟩

theorem witness_OperandRegistersChangeOnlyByHostWrites :
    (∃ (e : Event) (s t : State), event e s = .next t ∧ t.din ≠ s.din) ∧
    (∃ (e : Event) (s t : State), event e s = .next t ∧ t.key ≠ s.key) ∧
    ∃ (e : Event) (s t : State), event e s = .next t ∧ t.tgt ≠ s.tgt :=
  ⟨⟨.access (wr .din 0xB0), State.reset, _, rfl, by decide⟩, ⟨.access (wr .key 0x282), State.reset, _, rfl, by decide⟩,
    ⟨.access (wr .tgt 0xBD), State.reset, _, rfl, by decide⟩⟩

theorem witness_ResultRegistersChangeOnlyAtCompletion :
    (∃ (m : CoreMove) (s t : State), coreMove m s = .next t ∧ t.dout ≠ s.dout) ∧
    (∃ (m : CoreMove) (s t : State), coreMove m s = .next t ∧ t.subkey ≠ s.subkey) ∧
    ∃ (m : CoreMove) (s t : State), coreMove m s = .next t ∧ t.rcount ≠ s.rcount ∧ t.res ≠ s.res := by
  refine ⟨⟨.complete, running .encrypt, _, rfl, by decide +kernel⟩, ⟨.complete, running .keysched, _, rfl, by decide +kernel⟩,
    ⟨.merge, { State.reset with
      busy := true, opl := some .search, mergePos := 1, workers := [⟨0, 1024, 1024, [0x282], true, Lane.reset⟩] },
      _, rfl, by decide, by decide⟩⟩

theorem witness_AcceptedCommandsComplete : ∃ s : State, Inv s ∧ s.busy = true := ⟨running .decrypt, running_inv _ rfl, rfl⟩

/-- P1 from the state after reset, with the completion after the command. -/
theorem witness_PolledEncryptionIsTheHostsOwn : ∃ (s t : State) (es : List Event) (d k : BusWord), Inv s ∧
    es.filter (fun e => !isQuiet e) = accesses [clr, wr .din d, wr .key k, issue .encrypt] ∧
    runEvents es s = .next t ∧ t.err = false ∧ t.done = true :=
  ⟨resulted, _, accesses [clr, wr .din 0xB0, rd .din, wr .key 0x282, issue .encrypt] ++ [.core .phase, .core .complete],
    0xB0, 0x282, resulted_inv, by decide, rfl, rfl, rfl⟩

theorem witness_PseudoInstructionWords : (∃ n : Nat, 1 ≤ n ∧ n ≤ 1024 ∧ n = 1) ∧ ∃ n : Nat, 1 ≤ n ∧ n ≤ 1024 ∧ n = 1024 :=
  ⟨⟨1, by decide⟩, ⟨1024, by decide⟩⟩

end Sys2Proof.Tests
end

section
/-! SUPPORT and the obligations of 10_state.md: the invariant along every step, what a CORE move and a host access can
change in any state, and what the registers read. -/

namespace Sys2Proof.Machine

/-! ### The invariant along a step -/

/-- A CORE move keeps the invariant. -/
theorem inv_coreMove {s t : State} (m : CoreMove) (hi : Inv s) (h : coreMove m s = .next t) : Inv t := by
  obtain ⟨u, hu, hinv, -⟩ := coreMove_cases hi m
  cases h.symm.trans hu
  exact hinv

/-- Every event keeps the invariant. -/
theorem inv_event {s t : State} (e : Event) (hi : Inv s) (h : event e s = .next t) : Inv t := by
  cases e with
  | access a => exact inv_hostAccess a hi h
  | core m => exact inv_coreMove m hi h
  | reset => cases h; exact inv_resetEvent s

/-- With no event listed, a step is the CORE left to itself. -/
theorem step_of_inputs_nil {s : State} (h : s.inputs = []) : step s = coreMove .complete s := by
  simp only [step, h, unattended]

/-- With an event listed, a step takes it from the list and makes it happen. -/
theorem step_of_inputs_cons {s : State} {e : Event} {es : List Event} (h : s.inputs = e :: es) :
    step s = event e { s with inputs := es } := by
  simp only [step, h]

/-- Settles O40: a step is a CORE move or an event, and each keeps the invariant. -/
theorem everyStepKeepsTheInvariant : Obligations.EveryStepKeepsTheInvariant := by
  intro s t hi h
  cases hin : s.inputs with
  | nil =>
    rw [step_of_inputs_nil hin] at h
    exact inv_coreMove .complete hi h
  | cons e es =>
    rw [step_of_inputs_cons hin] at h
    exact inv_event e (inv_inputs hi es) h

/-! ### What a completion publishes -/

/-- A busy core makes the completion when its turn comes. -/
theorem coreMove_complete_of_busy {s : State} (hb : s.busy = true) : coreMove .complete s = complete s := by
  simp only [coreMove, hb, if_true]

/-- DOUT after a completion (42_cipher.md R163, R164). -/
theorem published_dout (s : State) (d : Lane) : (published s d).dout =
    if s.opl = some .encrypt then encrypt coreTables s.pin s.kin
    else if s.opl = some .decrypt then decrypt coreTables s.pin s.kin else s.dout := by
  rcases opl_cases s with ho | ho | ho | ho | ho <;> simp [published, ho]

/-- SUBKEY after a completion (41_key_schedule.md R143). -/
theorem published_subkey (s : State) (d : Lane) : (published s d).subkey =
    if s.opl = some .keysched then (keySchedule coreTables s.kin).2 ++ (keySchedule coreTables s.kin).1
    else s.subkey := by
  rcases opl_cases s with ho | ho | ho | ho | ho <;> simp [published, ho]

/-- RCOUNT after a completion (43_key_search.md R198). -/
theorem published_rcount (s : State) (d : Lane) : (published s d).rcount =
    if s.opl = some .search then BitVec.ofNat 11 (searchKeys coreTables s.pin s.tin).length else s.rcount := by
  rcases opl_cases s with ho | ho | ho | ho | ho <;> simp [published, ho]

/-- RES after a completion (43_key_search.md R198). -/
theorem published_res (s : State) (d : Lane) : (published s d).res =
    if s.opl = some .search then searchKeys coreTables s.pin s.tin else s.res := by
  rcases opl_cases s with ho | ho | ho | ho | ho <;> simp [published, ho]

/-- Settles O46: each core publishes its result, which is a function of the latch and the snapshots. -/
theorem resultsDependOnSnapshotsOnly : Obligations.ResultsDependOnSnapshotsOnly := by
  intro s t hs ht hbs hbt hopl hpin hkin htin
  obtain ⟨ds, hcs, -⟩ := complete_published hs hbs
  obtain ⟨dt, hct, -⟩ := complete_published ht hbt
  refine ⟨published s ds, published t dt, (coreMove_complete_of_busy hbs).trans hcs,
    (coreMove_complete_of_busy hbt).trans hct, ?_, ?_, ?_⟩
  · rintro (ho | ho) <;> simp [published_dout, ← hopl, ho, hpin, hkin]
  · intro ho
    simp [published_subkey, ← hopl, ho, hkin]
  · intro ho
    simp [published_rcount, published_res, ← hopl, ho, hpin, htin]

/-! ### What a CORE move can do, in any state -/

/-- A silent move changes no more than two do. -/
theorem Silent.trans {s t u : State} (hst : Silent s t) (htu : Silent t u) : Silent s u := by
  obtain ⟨_, _, _, _, rfl⟩ := hst
  obtain ⟨ph, d, ws, mp, rfl⟩ := htu
  exact ⟨ph, d, ws, mp, rfl⟩

/-- A core that stays as it is moves silently. -/
theorem Silent.refl (s : State) : Silent s s := ⟨_, _, _, _, rfl⟩

/-! The internal transfers of 42_cipher.md R162 and 43_key_search.md R194 are silent. -/

theorem phaseKS_silent (way : Way) (s : State) : Silent s (phaseKS way s) := ⟨_, _, _, _, rfl⟩
theorem phaseIP_silent (s : State) : Silent s (phaseIP s) := ⟨_, _, _, _, rfl⟩
theorem phaseR1_silent (s : State) : Silent s (phaseR1 s) := ⟨_, _, _, _, rfl⟩
theorem phaseSW_silent (s : State) : Silent s (phaseSW s) := ⟨_, _, _, _, rfl⟩
theorem phaseR2_silent (s : State) : Silent s (phaseR2 s) := ⟨_, _, _, _, rfl⟩
theorem moveWorker_silent (w : Nat) (s : State) : Silent s (moveWorker w s) := ⟨_, _, _, _, rfl⟩

/-- t is u with the result registers of the command op written, and the completion's flags (20_memory.md R63). -/
def Publishes (op : Opcode) (u t : State) : Prop :=
  match op with
  | .encrypt => ∃ v, t = flagsComplete { u with dout := v }
  | .decrypt => ∃ v, t = flagsComplete { u with dout := v }
  | .keysched => ∃ v, t = flagsComplete { u with subkey := v }
  | .search => ∃ n l, t = flagsComplete { u with rcount := n, res := l }

/-- t completes the command op begun in s: internal registers change, then the results are published. -/
def CompletedAs (op : Opcode) (s t : State) : Prop := ∃ u, Silent s u ∧ Publishes op u t

/-- A completion after a silent move is a completion. -/
theorem CompletedAs.of_silent {op : Opcode} {s u t : State} (hs : Silent s u) (hc : CompletedAs op u t) :
    CompletedAs op s t := by
  obtain ⟨v, huv, hp⟩ := hc
  exact ⟨v, hs.trans huv, hp⟩

/-- The opcodes that run a block through the cipher engine. -/
def IsCipherOp (op : Opcode) : Prop := op = .encrypt ∨ op = .decrypt

/-- Phase FP completes a running ENCRYPT or DECRYPT. -/
theorem phaseFP_completedAs {op : Opcode} (hop : IsCipherOp op) (s : State) : CompletedAs op s (phaseFP s) := by
  refine ⟨{ s with ph := .idle }, ⟨_, _, _, _, rfl⟩, ?_⟩
  rcases hop with rfl | rfl <;> exact ⟨_, rfl⟩

/-- The completion of a running ENCRYPT or DECRYPT, from any phase that has one. -/
theorem completeCipher_next {op : Opcode} (hop : IsCipherOp op) {way : Way} {s t : State}
    (h : completeCipher way s = .next t) : CompletedAs op s t := by
  have fp := phaseFP_completedAs hop
  have r2 := fun u => (fp _).of_silent (phaseR2_silent u)
  have sw := fun u => (r2 _).of_silent (phaseSW_silent u)
  have r1 := fun u => (sw _).of_silent (phaseR1_silent u)
  have ip := fun u => (r1 _).of_silent (phaseIP_silent u)
  unfold completeCipher at h
  split at h <;> cases h
  · exact (ip _).of_silent (phaseKS_silent way s)
  · exact ip s
  · exact r1 s
  · exact sw s
  · exact r2 s
  · exact fp s

/-- One phase of a running ENCRYPT or DECRYPT is an internal transfer, or, in FP, the completion. -/
theorem phaseCipher_next {op : Opcode} (hop : IsCipherOp op) {way : Way} {s t : State}
    (h : phaseCipher way s = .next t) : Silent s t ∨ CompletedAs op s t := by
  unfold phaseCipher at h
  split at h <;> cases h
  · exact .inl (phaseKS_silent way s)
  · exact .inl (phaseIP_silent s)
  · exact .inl (phaseR1_silent s)
  · exact .inl (phaseSW_silent s)
  · exact .inl (phaseR2_silent s)
  · exact .inr (phaseFP_completedAs hop s)

/-- The one phase of a running KEYSCHED completes it. -/
theorem phaseKeysched_next {s t : State} (h : phaseKeysched s = .next t) : CompletedAs .keysched s t := by
  unfold phaseKeysched at h
  split at h <;> cases h
  exact ⟨{ s with ph := .idle }, ⟨_, _, _, _, rfl⟩, _, rfl⟩

/-- The publication completes a search, whatever its workers hold. -/
theorem finishSearch_completedAs (s : State) (ws : List Worker) :
    CompletedAs .search s (finishSearch { s with workers := ws }) :=
  ⟨{ s with workers := [], mergePos := 0 }, ⟨_, _, _, _, rfl⟩, _, _, rfl⟩

/-- A step of the aggregator is an internal transfer or the publication. -/
theorem moveMerge_next (s : State) : Silent s (moveMerge s) ∨ CompletedAs .search s (moveMerge s) := by
  unfold moveMerge
  split
  · split
    · exact .inl ⟨_, _, _, _, rfl⟩
    · exact .inr (finishSearch_completedAs s s.workers)
  · exact .inl (Silent.refl s)

/-- The completion is that of the command in the latch. -/
theorem complete_next {s t : State} (h : complete s = .next t) : ∃ op, s.opl = some op ∧ CompletedAs op s t := by
  unfold complete at h
  split at h
  · cases h
  · exact ⟨.encrypt, ‹_›, completeCipher_next (.inl rfl) h⟩
  · exact ⟨.decrypt, ‹_›, completeCipher_next (.inr rfl) h⟩
  · exact ⟨.keysched, ‹_›, phaseKeysched_next h⟩
  · cases h
    exact ⟨.search, ‹_›, finishSearch_completedAs s _⟩

/-- A phase is an internal transfer or the completion of the command in the latch. -/
theorem movePhase_next {s t : State} (h : movePhase s = .next t) :
    Silent s t ∨ ∃ op, s.opl = some op ∧ CompletedAs op s t := by
  unfold movePhase at h
  split at h
  · cases h
  · exact (phaseCipher_next (.inl rfl) h).imp_right fun hc => ⟨.encrypt, ‹_›, hc⟩
  · exact (phaseCipher_next (.inr rfl) h).imp_right fun hc => ⟨.decrypt, ‹_›, hc⟩
  · exact .inr ⟨.keysched, ‹_›, phaseKeysched_next h⟩
  · cases h
    exact .inl (Silent.refl s)

/-- Everything a CORE move can do, in any state: nothing but internal registers changes, or BUSY was 1 and the command
in the latch completes. For the states of the invariant coreMove_cases says what it publishes. -/
theorem coreMove_next {m : CoreMove} {s t : State} (h : coreMove m s = .next t) :
    Silent s t ∨ (s.busy = true ∧ ∃ op, s.opl = some op ∧ CompletedAs op s t) := by
  unfold coreMove at h
  split at h
  · rename_i hb
    cases m with
    | complete => exact .inr ⟨hb, complete_next h⟩
    | phase => exact (movePhase_next h).imp_right fun hc => ⟨hb, hc⟩
    | worker w =>
      cases h
      split
      · exact .inl (moveWorker_silent w s)
      · exact .inl (Silent.refl s)
    | merge =>
      cases h
      split
      · exact (moveMerge_next s).imp_right fun hc => ⟨hb, .search, ‹_›, hc⟩
      · exact .inl (Silent.refl s)
  · cases h
    exact .inl (Silent.refl s)

/-! ### Operand registers -/

/-- DIN, KEY and TGT are the same in both states. -/
structure SameOperands (s t : State) : Prop where
  din : t.din = s.din
  key : t.key = s.key
  tgt : t.tgt = s.tgt

/-- A silent move keeps the operand registers. -/
theorem Silent.sameOperands {s t : State} (h : Silent s t) : SameOperands s t := by
  obtain ⟨ph, d, ws, mp, rfl⟩ := h
  exact ⟨rfl, rfl, rfl⟩

/-- A publication keeps the operand registers. -/
theorem Publishes.sameOperands {op : Opcode} {u t : State} (h : Publishes op u t) : SameOperands u t := by
  cases op with
  | encrypt | decrypt | keysched => obtain ⟨v, rfl⟩ := h; exact ⟨rfl, rfl, rfl⟩
  | search => obtain ⟨n, l, rfl⟩ := h; exact ⟨rfl, rfl, rfl⟩

/-- No CORE move writes DIN, KEY or TGT. -/
theorem coreMove_sameOperands {m : CoreMove} {s t : State} (h : coreMove m s = .next t) : SameOperands s t := by
  rcases coreMove_next h with hs | ⟨-, op, -, u, hs, hp⟩
  · exact hs.sameOperands
  · obtain ⟨hd, hk, ht⟩ := hs.sameOperands
    obtain ⟨hd', hk', ht'⟩ := hp.sameOperands
    exact ⟨hd'.trans hd, hk'.trans hk, ht'.trans ht⟩

/-- A write of CMD records an error or starts a well-formed command on an idle core (30_encoding.md R86). -/
theorem command_next {w : BusWord} {s t : State} (h : command w s = .next t) :
    (∃ c, t = raiseCmdError c s) ∨ (s.busy = false ∧ ∃ i, i.wf = true ∧ t = started i s) := by
  unfold command at h
  split at h
  · cases h
    exact .inl ⟨_, rfl⟩
  · rename_i hb
    have hidle : s.busy = false := by simpa using hb
    split at h
    · cases h
      exact .inl ⟨_, rfl⟩
    · rename_i i hd
      have hw := decode_wf hd
      rw [exec_idle i s hidle hw] at h
      cases h
      exact .inr ⟨hidle, i, hw, rfl⟩

/-- A write of CMD writes no operand register. -/
theorem command_sameOperands {w : BusWord} {s t : State} (h : command w s = .next t) : SameOperands s t := by
  rcases command_next h with ⟨c, rfl⟩ | ⟨-, i, -, rfl⟩
  · exact ⟨rfl, rfl, rfl⟩
  · cases i <;> exact ⟨rfl, rfl, rfl⟩

/-- A host read writes no operand register. -/
theorem memRead_sameOperands {off : Offset} {size : Size} {s t : State} (h : memRead off size s = .next t) :
    SameOperands s t := by
  unfold memRead at h
  split at h <;> cases h
  · exact ⟨rfl, rfl, rfl⟩
  · rename_i reg _
    obtain ⟨v, d, he⟩ := readReg_eq reg s
    rw [he]
    exact ⟨rfl, rfl, rfl⟩

/-- P holds of each operand register that t holds another value in than s. -/
def OperandChanges (P : Reg → Prop) (s t : State) : Prop :=
  (t.din ≠ s.din → P .din) ∧ (t.key ≠ s.key → P .key) ∧ (t.tgt ≠ s.tgt → P .tgt)

/-- Where no operand register changes, P is asked of none. -/
theorem SameOperands.operandChanges {s t : State} (h : SameOperands s t) (P : Reg → Prop) : OperandChanges P s t :=
  ⟨(absurd h.din ·), (absurd h.key ·), (absurd h.tgt ·)⟩

/-- A weaker property holds of the changed operand registers too; RES is none of them. -/
theorem OperandChanges.imp {P Q : Reg → Prop} {s t : State} (h : OperandChanges P s t)
    (hPQ : ∀ reg, (∀ n, reg ≠ .res n) → P reg → Q reg) : OperandChanges Q s t := by
  obtain ⟨hd, hk, ht⟩ := h
  exact ⟨hPQ _ nofun ∘ hd, hPQ _ nofun ∘ hk, hPQ _ nofun ∘ ht⟩

/-- The answer on the bus is no operand register. -/
theorem operandChanges_respond (P : Reg → Prop) (r : Response) (s t : State) :
    OperandChanges P (respond r s) t ↔ OperandChanges P s t := Iff.rfl

/-- While BUSY a write that only an idle core takes changes no operand register. -/
theorem whenIdle_operandChanges {P : Reg → Prop} {s : State} {f : State → State}
    (h : s.busy = false → OperandChanges P s (f s)) : OperandChanges P s (whenIdle s f) := by
  cases hb : s.busy with
  | true =>
    have hsame : SameOperands s (raiseCmdError .busyWrite s) := ⟨rfl, rfl, rfl⟩
    rw [whenIdle_busy f hb]
    exact hsame.operandChanges P
  | false =>
    rw [whenIdle_idle f hb]
    exact h hb

/-- A write that passed the check writes no operand register but the one it is made to, and that one only in an idle
core (20_memory.md R58, 70_reset_and_hazards.md R274). -/
theorem writeReg_operandChanges {reg : Reg} {w : BusWord} {s t : State} (h : writeReg reg w s = .next t) :
    OperandChanges (fun r => reg = r ∧ s.busy = false) s t := by
  cases reg with
  | cmd => exact (command_sameOperands h).operandChanges _
  | din => cases h; exact whenIdle_operandChanges fun hb => ⟨fun _ => ⟨rfl, hb⟩, absurd rfl, absurd rfl⟩
  | key => cases h; exact whenIdle_operandChanges fun hb => ⟨absurd rfl, fun _ => ⟨rfl, hb⟩, absurd rfl⟩
  | tgt => cases h; exact whenIdle_operandChanges fun hb => ⟨absurd rfl, absurd rfl, fun _ => ⟨rfl, hb⟩⟩
  | status | irqen | id | dout | subkey | rcount | res n => cases h; exact ⟨absurd rfl, absurd rfl, absurd rfl⟩

/-- An access that passes the check for a register outside RES is the aligned word at that register's offset. -/
theorem offset_of_checkAccess {dir : Dir} {off : Offset} {size : Size} {reg : Reg}
    (h : checkAccess dir off size = some reg) (hres : ∀ n, reg ≠ .res n) : off = reg.offset ∧ size = .word := by
  obtain ⟨hsize, hreg⟩ := checkAccess_some h
  exact ⟨offset_of_regAt off reg hreg hres, hsize⟩

/-- A host write changes an operand register only as the word-sized write at its offset, in an idle core. -/
theorem memWrite_operandChanges {off : Offset} {size : Size} {w : BusWord} {s t : State}
    (h : memWrite off size w s = .next t) :
    OperandChanges (fun reg => s.busy = false ∧ off = reg.offset ∧ size = .word) s t := by
  unfold memWrite at h
  split at h
  · cases h
    exact ⟨absurd rfl, absurd rfl, absurd rfl⟩
  · rename_i reg hcheck
    refine ((operandChanges_respond ..).1 (writeReg_operandChanges h)).imp ?_
    rintro _ hres ⟨rfl, hb⟩
    exact ⟨hb, offset_of_checkAccess hcheck hres⟩

/-- Settles O47: only a host write reaches an operand register, through the check and in an idle core. -/
theorem operandRegistersChangeOnlyByHostWrites : Obligations.OperandRegistersChangeOnlyByHostWrites := by
  intro e s t h
  change OperandChanges
    (fun reg => e = .reset ∨ (s.busy = false ∧ ∃ w, e = .access (.write reg.offset .word w))) s t
  match e with
  | .reset => exact ⟨fun _ => .inl rfl, fun _ => .inl rfl, fun _ => .inl rfl⟩
  | .core m => exact (coreMove_sameOperands h).operandChanges _
  | .access (.read off size) => exact (memRead_sameOperands h).operandChanges _
  | .access (.write off size w) =>
    refine (memWrite_operandChanges h).imp ?_
    rintro reg - ⟨hb, rfl, rfl⟩
    exact .inr ⟨hb, w, rfl⟩

/-! ### Result registers -/

/-- DOUT, SUBKEY, RCOUNT and RES are the same in both states. -/
structure SameResults (s t : State) : Prop where
  dout : t.dout = s.dout
  subkey : t.subkey = s.subkey
  rcount : t.rcount = s.rcount
  res : t.res = s.res

/-- No host access writes a result register. -/
theorem hostAccess_sameResults {a : Access} {s t : State} (h : hostAccess a s = .next t) : SameResults s t := by
  obtain ⟨u, hu, hc⟩ := hostAccess_cases a s
  cases h.symm.trans hu
  rcases hc with ⟨r, d, rfl⟩ | ⟨c, rfl⟩ | ⟨w, rfl⟩ | ⟨w, rfl⟩ | ⟨-, d, k, g, rfl⟩ | ⟨-, i, -, rfl⟩
  case inr.inr.inr.inr.inr => cases i <;> exact ⟨rfl, rfl, rfl, rfl⟩
  all_goals exact ⟨rfl, rfl, rfl, rfl⟩

/-- A silent move keeps the result registers. -/
theorem Silent.sameResults {s t : State} (h : Silent s t) : SameResults s t := by
  obtain ⟨ph, d, ws, mp, rfl⟩ := h
  exact ⟨rfl, rfl, rfl, rfl⟩

/-- p holds if DOUT changed, q if SUBKEY did, r if RCOUNT or RES did. -/
def ResultChanges (p q r : Prop) (s t : State) : Prop :=
  (t.dout ≠ s.dout → p) ∧ (t.subkey ≠ s.subkey → q) ∧ (t.rcount ≠ s.rcount ∨ t.res ≠ s.res → r)

/-- Where no result register changes, nothing is asked. -/
theorem SameResults.resultChanges {s t : State} (h : SameResults s t) (p q r : Prop) : ResultChanges p q r s t :=
  ⟨(absurd h.dout ·), (absurd h.subkey ·), fun hn => hn.elim (absurd h.rcount) (absurd h.res)⟩

/-- A publication lowers BUSY and writes the result registers of its own command only. -/
theorem Publishes.resultChanges {op : Opcode} {u t : State} (h : Publishes op u t) :
    t.busy = false ∧ ResultChanges (op = .encrypt ∨ op = .decrypt) (op = .keysched) (op = .search) u t := by
  cases op with
  | encrypt => obtain ⟨v, rfl⟩ := h; exact ⟨rfl, fun _ => .inl rfl, absurd rfl, (·.elim (absurd rfl) (absurd rfl))⟩
  | decrypt => obtain ⟨v, rfl⟩ := h; exact ⟨rfl, fun _ => .inr rfl, absurd rfl, (·.elim (absurd rfl) (absurd rfl))⟩
  | keysched => obtain ⟨v, rfl⟩ := h; exact ⟨rfl, absurd rfl, fun _ => rfl, (·.elim (absurd rfl) (absurd rfl))⟩
  | search => obtain ⟨n, l, rfl⟩ := h; exact ⟨rfl, absurd rfl, absurd rfl, fun _ => rfl⟩

/-- A CORE move changes a result register only as the completion of the command that owns it. -/
theorem coreMove_resultChanges {m : CoreMove} {s t : State} (h : coreMove m s = .next t) :
    ResultChanges
      (s.busy = true ∧ t.busy = false ∧ (s.opl = some .encrypt ∨ s.opl = some .decrypt))
      (s.busy = true ∧ t.busy = false ∧ s.opl = some .keysched)
      (s.busy = true ∧ t.busy = false ∧ s.opl = some .search) s t := by
  rcases coreMove_next h with hs | ⟨hb, op, ho, u, hs, hp⟩
  · exact hs.sameResults.resultChanges _ _ _
  · obtain ⟨hidle, hd, hk, hl⟩ := hp.resultChanges
    obtain ⟨ed, ek, en, el⟩ := hs.sameResults
    rw [ed] at hd
    rw [ek] at hk
    rw [en, el] at hl
    exact ⟨fun hn => ⟨hb, hidle, by simpa [ho] using hd hn⟩, fun hn => ⟨hb, hidle, by simpa [ho] using hk hn⟩,
      fun hn => ⟨hb, hidle, by simpa [ho] using hl hn⟩⟩

/-- Settles O48: no host access writes a result register, and a CORE move that does is the completion of the command
that owns it. -/
theorem resultRegistersChangeOnlyAtCompletion : Obligations.ResultRegistersChangeOnlyAtCompletion := by
  intro e s t h
  match e with
  | .reset => exact ⟨fun _ => .inl rfl, fun _ => .inl rfl, fun _ => .inl rfl⟩
  | .access a => exact (hostAccess_sameResults h).resultChanges _ _ _
  | .core m =>
    obtain ⟨hd, hk, hl⟩ := coreMove_resultChanges h
    exact ⟨fun hn => .inr ⟨⟨m, rfl⟩, hd hn⟩, fun hn => .inr ⟨⟨m, rfl⟩, hk hn⟩, fun hn => .inr ⟨⟨m, rfl⟩, hl hn⟩⟩

/-! ### What the registers read -/

/-- A field that fits the bus word reads below 2 to its width. -/
theorem toNat_lt_of_read {n : Nat} (x : BitVec n) (hn : n ≤ 32) {v : BusWord} (h : some (x.setWidth 32) = some v) :
    v.toNat < 2 ^ n := by
  cases h
  rw [BitVec.toNat_setWidth_of_le hn]
  exact x.isLt

/-- RCOUNT, where it has a specified value, is 11 bits (10_state.md R26). -/
theorem rcount_read_lt {s : State} {v : BusWord} (h : regValue .rcount s = some v) : v.toNat < 2 ^ 11 := by
  simp only [regValue] at h
  split at h
  · cases h
  · exact toNat_lt_of_read s.rcount (by decide) h

/-- A RES entry, where it has a specified value, is a 10-bit key (10_state.md R27). -/
theorem res_read_lt {n : Nat} {s : State} {v : BusWord} (h : regValue (.res n) s = some v) : v.toNat < 2 ^ 10 := by
  obtain ⟨k, -, hk⟩ := Option.map_eq_some_iff.1 h
  exact toNat_lt_of_read k (by decide) (congrArg some hk)

/-- Bit 3 of STATUS is reserved (10_state.md R31). -/
theorem statusWord_bit3 (s : State) : (statusWord s).getLsbD 3 = false := by
  simp only [statusWord, BitVec.getLsbD_setWidth, BitVec.getLsbD_append]
  simp

/-- STATUS is 7 bits with bit 3 reserved (10_state.md R31). -/
theorem status_read_lt {s : State} {v : BusWord} (h : regValue .status s = some v) :
    v.getLsbD 3 = false ∧ v.toNat < 2 ^ 7 := by
  have hlt : v.toNat < 2 ^ 7 := toNat_lt_of_read _ (by decide) h
  cases h
  exact ⟨statusWord_bit3 s, hlt⟩

/-- Settles O22: what a register reads is its field, zero-extended. -/
theorem reservedBitsReadZero : Obligations.ReservedBitsReadZero := fun s _ =>
  ⟨toNat_lt_of_read s.din (by decide), toNat_lt_of_read s.key (by decide), toNat_lt_of_read s.tgt (by decide),
    toNat_lt_of_read s.dout (by decide), toNat_lt_of_read s.subkey (by decide), rcount_read_lt, fun _ => res_read_lt,
    status_read_lt, toNat_lt_of_read (BitVec.ofBool s.errie ++ BitVec.ofBool s.doneie) (by decide)⟩

/-- RES lists nothing specified while RCOUNT is 0. -/
theorem regValue_res_of_rcount_zero {s : State} (h : s.rcount = 0) (n : Nat) : regValue (.res n) s = none := by
  simp [regValue, resValue, h]

/-- Settles O26: the state after reset is a literal, and RES is unspecified because RCOUNT is 0. -/
theorem resetStateReadsAsTheTable : Obligations.ResetStateReadsAsTheTable :=
  ⟨rfl, rfl, rfl, rfl, rfl, rfl, rfl, rfl, rfl, regValue_res_of_rcount_zero rfl, rfl, rfl, rfl, rfl⟩

end Sys2Proof.Machine
end

section
/-! SUPPORT and the obligations of 20_memory.md: the order of the events, the register map and the access check, and
what a read and a write of each register do. -/

namespace Sys2Proof.Machine

/-! ### The next event -/

/-- An idle core has no move (70_reset_and_hazards.md R281). -/
theorem coreMove_of_idle {m : CoreMove} {s : State} (hb : s.busy = false) : coreMove m s = .next s := by
  simp [coreMove, hb]

/-- Settles O6: a listed event is taken; with none listed the CORE has its turn, which an idle core does not use. -/
theorem stepTakesTheNextEvent : Obligations.StepTakesTheNextEvent :=
  ⟨fun _ _ _ => step_of_inputs_cons,
    fun _ hin hb => (step_of_inputs_nil hin).trans (coreMove_of_idle hb),
    fun _ hin hb => (step_of_inputs_nil hin).trans (coreMove_complete_of_busy hb)⟩

/-! ### The access check -/

/-- Every offset from 0x1000 on is that of a RES entry (20_memory.md R52). -/
theorem regAt_of_ge {off : Offset} (h : 0x1000 ≤ off.toNat) :
    regAt off = some (.res ((off.toNat - 0x1000) / 4)) := by
  simp only [regAt, h, if_true]

/-- No register stands between RCOUNT and RES (20_memory.md R52). -/
theorem regAt_reserved {off : Offset} (hlo : 0x028 ≤ off.toNat) (hhi : off.toNat < 0x1000) : regAt off = none := by
  unfold regAt
  rw [if_neg (by omega)]
  split
  case h_11 => rfl
  all_goals omega

/-- Below the reserved range there are ten aligned offsets. -/
theorem exists_eq_ofNat_of_lt {off : Offset} (ha : off.toNat % 4 = 0) (hlt : off.toNat < 0x028) :
    ∃ k : Fin 10, off = BitVec.ofNat 13 (4 * k) :=
  ⟨⟨off.toNat / 4, by omega⟩, by rw [Nat.mul_div_cancel' (by omega), BitVec.ofNat_toNat, BitVec.setWidth_eq]⟩

/-- An access that is no aligned word fails the check (20_memory.md R54). -/
theorem checkAccess_of_not_aligned_word (dir : Dir) {off : Offset} {size : Size}
    (h : size ≠ .word ∨ off.toNat % 4 ≠ 0) : checkAccess dir off size = none := by
  unfold checkAccess
  rw [if_pos h]

/-- An aligned word reaches the register at its offset, if there is one and it allows the direction (20_memory.md
R54). -/
theorem checkAccess_aligned_word (dir : Dir) {off : Offset} (ha : off.toNat % 4 = 0) :
    checkAccess dir off .word = (regAt off).filter (·.allows dir) := by
  unfold checkAccess
  rw [if_neg (by simp [ha])]
  cases regAt off <;> rfl

/-- Settles O17: an aligned word is in RES, in the reserved range, or at one of the ten offsets below it, where the map
is read off register by register. -/
theorem accessCheckRefusesExactly : Obligations.AccessCheckRefusesExactly := by
  intro dir off size
  by_cases hbad : size ≠ .word ∨ off.toNat % 4 ≠ 0
  · simp only [checkAccess_of_not_aligned_word dir hbad, true_iff]
    exact hbad.imp_right .inl
  · push Not at hbad
    obtain ⟨rfl, ha⟩ := hbad
    rcases Nat.lt_or_ge off.toNat 0x1000 with hlow | hres
    · rcases Nat.lt_or_ge off.toNat 0x028 with hmap | hgap
      · obtain ⟨k, rfl⟩ := exists_eq_ofNat_of_lt ha hmap
        clear ha hlow hmap
        cases dir <;> revert k <;> decide
      · simp only [checkAccess_aligned_word dir ha, regAt_reserved hgap hlow, Option.filter_none, true_iff]
        omega
    · rw [checkAccess_aligned_word dir ha, regAt_of_ge hres]
      cases dir with
      | read => simp [Option.filter, Reg.allows]; omega
      | write => simp [Option.filter, Reg.allows, hres]

/-- A read that fails the check is answered BusError (20_memory.md R55). -/
theorem memRead_of_refused {off : Offset} {size : Size} {s : State} (h : checkAccess .read off size = none) :
    memRead off size s = .next (respond (.busError off) s) := by
  simp only [memRead, h]

/-- A write that fails the check is answered BusError (20_memory.md R55). -/
theorem memWrite_of_refused {off : Offset} {size : Size} {w : BusWord} {s : State}
    (h : checkAccess .write off size = none) : memWrite off size w s = .next (respond (.busError off) s) := by
  simp only [memWrite, h]

/-- Settles O18: the refused accesses are those of O17, and the answer is all they leave. -/
theorem busErrorChangesNothing : Obligations.BusErrorChangesNothing := fun off size _ _ =>
  ⟨fun h => memRead_of_refused ((accessCheckRefusesExactly .read off size).2 (by simpa using h)),
    fun h => memWrite_of_refused ((accessCheckRefusesExactly .write off size).2 (by simpa using h))⟩

/-! ### Reads -/

/-- A host read leaves everything but the response and the count of draws (20_memory.md R55, R57). -/
theorem memRead_eq (off : Offset) (size : Size) (s : State) :
    ∃ r d, memRead off size s = .next { s with resp := r, draws := d } := by
  cases hcheck : checkAccess .read off size with
  | none => exact ⟨_, s.draws, memRead_of_refused hcheck⟩
  | some reg =>
    obtain ⟨v, d, hread⟩ := readReg_eq reg s
    exact ⟨some (.data v), d, by simp only [memRead, hcheck, hread]⟩

/-- So does a list of host reads. -/
theorem runEvents_reads (rs : List (Offset × Size)) (s : State) :
    ∃ r d, runEvents (rs.map fun r => .access (.read r.1 r.2)) s = .next { s with resp := r, draws := d } := by
  induction rs generalizing s with
  | nil => exact ⟨s.resp, s.draws, rfl⟩
  | cons a rs ih =>
    obtain ⟨r, d, hread⟩ := memRead_eq a.1 a.2 s
    obtain ⟨r', d', hrun⟩ := ih { s with resp := r, draws := d }
    exact ⟨r', d', by simpa only [List.map_cons, runEvents, event, hostAccess, hread] using hrun⟩

/-- No register shows the response or the count of draws. -/
theorem regValue_resp_draws (reg : Reg) (s : State) (r : Option Response) (d : Nat) :
    regValue reg { s with resp := r, draws := d } = regValue reg s := by
  cases reg <;> rfl

/-- Settles O20: the reads leave everything but the response and the count of draws, which no register shows. -/
theorem readsHaveNoSideEffect : Obligations.ReadsHaveNoSideEffect := by
  intro rs s
  obtain ⟨r, d, hrun⟩ := runEvents_reads rs s
  exact ⟨_, hrun, rfl, fun reg => regValue_resp_draws reg s r d⟩

/-- A read of a register with a specified value answers that value (20_memory.md R56). -/
theorem memRead_of_regValue {off : Offset} {size : Size} {reg : Reg} {s : State} {v : BusWord}
    (hc : checkAccess .read off size = some reg) (hv : regValue reg s = some v) :
    memRead off size s = .next { s with resp := some (.data v) } := by
  simp only [memRead, hc, readReg, hv, respond]

/-- A read of a register without a specified value answers the next free value and counts it (20_memory.md R56). -/
theorem memRead_of_unspecified {off : Offset} {size : Size} {reg : Reg} {s : State}
    (hc : checkAccess .read off size = some reg) (hv : regValue reg s = none) :
    memRead off size s = .next { s with resp := some (.data (anyValue reg s.draws)), draws := s.draws + 1 } := by
  simp only [memRead, hc, readReg, hv, respond]

/-- STATUS as a number (20_memory.md R56). -/
theorem statusWord_toNat (s : State) :
    (statusWord s).toNat = s.ecode.toNat * 16 + s.err.toNat * 4 + s.done.toNat * 2 + s.busy.toNat := by
  unfold statusWord
  generalize s.ecode = c, s.err = e, s.done = d, s.busy = b
  revert c e d b
  decide

/-- IRQEN as a number (20_memory.md R56). -/
theorem irqenWord_toNat (s : State) : (irqenWord s).toNat = s.errie.toNat * 2 + s.doneie.toNat := by
  unfold irqenWord
  cases s.errie <;> cases s.doneie <;> rfl

/-- RCOUNT has a specified value unless a SEARCH runs (70_reset_and_hazards.md R275). -/
theorem regValue_rcount (s : State) :
    regValue .rcount s =
      if s.busy = true ∧ s.opl = some .search then none else some (s.rcount.setWidth 32) := by
  simp only [regValue, searching_iff]

/-- RES[n] has no specified value while a SEARCH runs, or at or past RCOUNT (70_reset_and_hazards.md R275, R276). -/
theorem regValue_res_unspecified {n : Nat} {s : State}
    (h : (s.busy = true ∧ s.opl = some .search) ∨ s.rcount.toNat ≤ n) : regValue (.res n) s = none := by
  simp only [regValue, resValue, searching_iff, if_pos h, Option.map_none]

/-- RES[n] below RCOUNT, with no SEARCH running, reads as the n-th key listed (70_reset_and_hazards.md R276). -/
theorem regValue_res_listed {n : Nat} {s : State} (hsearch : ¬(s.busy = true ∧ s.opl = some .search))
    (hn : n < s.rcount.toNat) : regValue (.res n) s = s.res[n]?.map fun k => k.setWidth 32 := by
  have hspec : ¬((s.busy = true ∧ s.opl = some .search) ∨ s.rcount.toNat ≤ n) :=
    not_or.2 ⟨hsearch, Nat.not_le.2 hn⟩
  simp only [regValue, resValue, searching_iff, if_neg hspec]

/-- Settles O19: the registers at fixed offsets answer by evaluation, STATUS and IRQEN with the words computed above;
RCOUNT and RES answer their value where they have a specified one, and a free value where not. -/
theorem readsReturnTheRegisters : Obligations.ReadsReturnTheRegisters := by
  intro s
  refine ⟨⟨statusWord s, rfl, statusWord_toNat s⟩, ⟨irqenWord s, rfl, irqenWord_toNat s⟩,
    rfl, rfl, rfl, rfl, rfl, rfl, fun hidle => ?_, fun hsearch => ?_,
    fun n hn => ⟨fun hi hidle hlt => ?_, fun hnone => ?_⟩⟩
  · exact memRead_of_regValue (reg := .rcount) rfl ((regValue_rcount s).trans (if_neg hidle))
  · exact memRead_of_unspecified (reg := .rcount) rfl ((regValue_rcount s).trans (if_pos hsearch))
  · obtain ⟨hlen, -, -⟩ := hi.results
    have hk : s.res[n]? = some (s.res[n]'(hlen ▸ hlt)) := List.getElem?_eq_getElem _
    have hv := regValue_res_listed hidle hlt
    rw [hk, Option.map_some] at hv
    exact ⟨_, hk, memRead_of_regValue (checkAccess_res n hn) hv⟩
  · exact memRead_of_unspecified (checkAccess_res n hn) (regValue_res_unspecified hnone)

/-! ### Writes -/

/-- A word-sized write that passes the check is answered OK and made to its register (20_memory.md R58). -/
theorem memWrite_of_check {off : Offset} (reg : Reg) (w : BusWord) (s : State)
    (hc : checkAccess .write off .word = some reg) : memWrite off .word w s = writeReg reg w (respond .ok s) := by
  simp only [memWrite, hc]

/-- What a write of STATUS leaves in DONE, ERR and ECODE (20_memory.md R58). -/
theorem clearStatus_eq (w : BusWord) (s : State) :
    clearStatus w s = { s with
      done := if w.getLsbD 1 then false else s.done
      err := if w.getLsbD 2 then false else s.err
      ecode := if w.getLsbD 2 then 0#3 else s.ecode } := by
  have cleared (a b : Bool) : (a && !b) = if b then false else a := by cases b <;> simp
  simp only [clearStatus, flagsWriteStatus, cleared]

/-- Settles O21: each write passes the check for the register at its offset; CMD and IRQEN are then the definitions. -/
theorem writesFollowTheMap : Obligations.WritesFollowTheMap := by
  intro w s
  have hdin := memWrite_of_check (off := 0x010) .din w s rfl
  have hkey := memWrite_of_check (off := 0x014) .key w s rfl
  have htgt := memWrite_of_check (off := 0x018) .tgt w s rfl
  refine ⟨memWrite_of_check .cmd w s rfl,
    (memWrite_of_check .status w s rfl).trans (congrArg _ (clearStatus_eq w _)),
    memWrite_of_check .irqen w s rfl, fun hb off hoff => ?_, fun hb => ⟨?_, ?_, ?_⟩⟩
  · rcases hoff with rfl | rfl | rfl
    · exact hdin.trans (congrArg _ (whenIdle_busy (s := respond .ok s) _ hb))
    · exact hkey.trans (congrArg _ (whenIdle_busy (s := respond .ok s) _ hb))
    · exact htgt.trans (congrArg _ (whenIdle_busy (s := respond .ok s) _ hb))
  · exact hdin.trans (congrArg _ (whenIdle_idle (s := respond .ok s) _ hb))
  · exact hkey.trans (congrArg _ (whenIdle_idle (s := respond .ok s) _ hb))
  · exact htgt.trans (congrArg _ (whenIdle_idle (s := respond .ok s) _ hb))

end Sys2Proof.Machine
end

section
/-! SUPPORT and the obligations of 30_encoding.md: the decoder and the encoder as inverses of each other, the decoder
over the numbers its fields stand for, and what the write of a command word to CMD does. -/

namespace Sys2Proof.Machine

/-! ### The decoder, check by check -/

/-- OP stands for an opcode exactly when it is that opcode's value (30_encoding.md R81). -/
theorem opcodeOf_eq_some_iff (v : BitVec 4) (op : Opcode) : opcodeOf v = some op ↔ v = opcodeValue op := by
  cases op <;> revert v <;> decide

/-- The reserved values of OP (30_encoding.md R81). -/
theorem opcodeOf_eq_none_iff (v : BitVec 4) :
    opcodeOf v = none ↔ v.toNat ≠ 1 ∧ v.toNat ≠ 2 ∧ v.toNat ≠ 3 ∧ v.toNat ≠ 4 := by
  revert v
  decide

/-- A check that passes accepts its command. -/
theorem ite_accept_eq_accept_iff {c : Prop} [Decidable c] {i j : Instr} {code : CmdError} :
    (if c then Decoded.accept i else .illegal code) = .accept j ↔ c ∧ i = j := by
  split <;> simp_all

/-- An opcode and a worker count are accepted together exactly as the well-formed command they make (30_encoding.md
R83). -/
theorem withNW_eq_accept_iff (op : Opcode) (nw : Count) (i : Instr) :
    withNW op nw = .accept i ↔ i.opcode = op ∧ i.nw = nw ∧ i.wf = true := by
  constructor
  · intro h
    cases op with
    | encrypt | decrypt | keysched =>
      obtain ⟨hzero, rfl⟩ := ite_accept_eq_accept_iff.1 h
      exact ⟨rfl, hzero.symm, rfl⟩
    | search =>
      obtain ⟨hlegal, rfl⟩ := ite_accept_eq_accept_iff.1 h
      exact ⟨rfl, rfl, hlegal⟩
  · rintro ⟨rfl, rfl, hwf⟩
    cases i with
    | encrypt | decrypt | keysched => rfl
    | search nw => exact if_pos hwf

/-- SEARCH with a worker count that is not legal is a bad argument (30_encoding.md R83). -/
theorem withNW_search (nw : Count) : withNW .search nw =
    if nw.toNat = 0 ∨ 1024 < nw.toNat then .illegal .badArg else .accept (.search nw) := by
  have hlegal := nwLegal_iff nw
  by_cases h : nw.toNat = 0 ∨ 1024 < nw.toNat
  · rw [if_pos h]
    exact if_neg (hlegal.not.2 (by omega))
  · rw [if_neg h]
    exact if_pos (hlegal.2 (by omega))

/-- A word with a reserved bit set is refused (30_encoding.md R82). -/
theorem decode_of_reserved {w : BusWord} (h : fieldRSV0 w ≠ 0#12 ∨ fieldRSV1 w ≠ 0#5) :
    decode w = .illegal .illegalCmd :=
  if_pos h

/-- A word with a reserved OP is refused (30_encoding.md R81). -/
theorem decode_of_reservedOP {w : BusWord} (h : opcodeOf (fieldOP w) = none) : decode w = .illegal .illegalCmd := by
  simp only [decode, h, ite_self]

/-- A word whose reserved bits are 0 and whose OP is an opcode decodes by its worker count (30_encoding.md R83). -/
theorem decode_of_opcode {w : BusWord} {op : Opcode} (h0 : fieldRSV0 w = 0#12) (h1 : fieldRSV1 w = 0#5)
    (hop : opcodeOf (fieldOP w) = some op) : decode w = withNW op (fieldNW w) := by
  simp [decode, h0, h1, hop]

/-! ### The fields as numbers (30_encoding.md R80) -/

theorem fieldOP_toNat (w : BusWord) : (fieldOP w).toNat = w.toNat % 16 := by
  obtain ⟨hop, -, -, -⟩ := fields_toNat w
  simp [hop]

theorem fieldRSV0_toNat (w : BusWord) : (fieldRSV0 w).toNat = w.toNat / 16 % 4096 := by
  obtain ⟨-, h0, -, -⟩ := fields_toNat w
  simp [h0]

theorem fieldNW_toNat (w : BusWord) : (fieldNW w).toNat = w.toNat / 65536 % 2048 := by
  obtain ⟨-, -, hnw, -⟩ := fields_toNat w
  simp [hnw]

theorem fieldRSV1_toNat (w : BusWord) : (fieldRSV1 w).toNat = w.toNat / 134217728 := by
  obtain ⟨-, -, -, h1⟩ := fields_toNat w
  have hw := w.isLt
  rw [h1, BitVec.toNat_ofNat, Nat.mod_eq_of_lt (by omega)]

/-! ### Decoding and encoding are inverses -/

/-- The fields of w are those of the command i: its opcode, its worker count, and 0 in both reserved fields. -/
structure FieldsOf (i : Instr) (w : BusWord) : Prop where
  op : fieldOP w = opcodeValue i.opcode
  rsv0 : fieldRSV0 w = 0#12
  nw : fieldNW w = i.nw
  rsv1 : fieldRSV1 w = 0#5

/-- The decoder accepts a word as a command exactly when the word has the fields of that command, and it is well
formed. -/
theorem decode_eq_accept_iff_fieldsOf (w : BusWord) (i : Instr) :
    decode w = .accept i ↔ i.wf = true ∧ FieldsOf i w := by
  constructor
  · intro h
    have hres : ¬(fieldRSV0 w ≠ 0#12 ∨ fieldRSV1 w ≠ 0#5) := fun hr => by simp [decode_of_reserved hr] at h
    push Not at hres
    obtain ⟨h0, h1⟩ := hres
    cases hop : opcodeOf (fieldOP w) with
    | none => simp [decode_of_reservedOP hop] at h
    | some op =>
      rw [decode_of_opcode h0 h1 hop, withNW_eq_accept_iff] at h
      obtain ⟨rfl, hnw, hwf⟩ := h
      exact ⟨hwf, (opcodeOf_eq_some_iff _ _).1 hop, h0, hnw.symm, h1⟩
  · rintro ⟨hwf, hop, h0, hnw, h1⟩
    rw [decode_of_opcode h0 h1 ((opcodeOf_eq_some_iff _ _).2 hop), withNW_eq_accept_iff]
    exact ⟨rfl, hnw.symm, hwf⟩

/-- The encoder's word has the fields of its command, as numbers (30_encoding.md R80). -/
theorem encodedFields (i : Instr) : Laws.EncodedFields.Statement i :=
  match i with
  | .encrypt => Laws.EncodedFields.encrypt
  | .decrypt => Laws.EncodedFields.decrypt
  | .keysched => Laws.EncodedFields.keysched
  | .search nw => Laws.EncodedFields.search nw

/-- A word has the fields of a command exactly when it is the encoder's word of it: the four fields are the whole
word. -/
theorem fieldsOf_iff_encode_eq (i : Instr) (w : BusWord) : FieldsOf i w ↔ encode i = w := by
  constructor
  · rintro ⟨hop, h0, hnw, h1⟩
    have hopN := (fieldOP_toNat w).symm.trans (congrArg BitVec.toNat hop)
    have h0N := (fieldRSV0_toNat w).symm.trans (congrArg BitVec.toNat h0)
    have hnwN := (fieldNW_toNat w).symm.trans (congrArg BitVec.toNat hnw)
    have h1N := (fieldRSV1_toNat w).symm.trans (congrArg BitVec.toNat h1)
    simp only [BitVec.toNat_ofNat, Nat.zero_mod] at h0N h1N
    apply BitVec.eq_of_toNat_eq
    rw [encode_toNat]
    omega
  · rintro rfl
    obtain ⟨hop, h0, hnw, h1⟩ := encodedFields i
    exact ⟨BitVec.eq_of_toNat_eq ((fieldOP_toNat _).trans hop), BitVec.eq_of_toNat_eq ((fieldRSV0_toNat _).trans h0),
      BitVec.eq_of_toNat_eq ((fieldNW_toNat _).trans hnw), BitVec.eq_of_toNat_eq ((fieldRSV1_toNat _).trans h1)⟩

/-- Settles O1: both sides say that the command is well formed and the word has its fields. -/
theorem decodeAcceptsExactlyEncodings : Obligations.DecodeAcceptsExactlyEncodings := fun w i =>
  (decode_eq_accept_iff_fieldsOf w i).trans (and_congr_right' (fieldsOf_iff_encode_eq i w))

/-! ### The decoder over numbers -/

/-- Settles O2, check by check: the reserved fields, OP, and then NW for each of the four opcodes. -/
theorem decodeSortsEveryWord : Obligations.DecodeSortsEveryWord := by
  intro w op rsv0 nw rsv1
  have hrsv0 : fieldRSV0 w = 0#12 ↔ rsv0 = 0 := by rw [← BitVec.toNat_inj, fieldRSV0_toNat]; rfl
  have hrsv1 : fieldRSV1 w = 0#5 ↔ rsv1 = 0 := by rw [← BitVec.toNat_inj, fieldRSV1_toNat]; rfl
  have hnw : (fieldNW w).toNat = nw := fieldNW_toNat w
  have hzero : fieldNW w = 0#11 ↔ nw = 0 := by rw [← BitVec.toNat_inj, hnw]; rfl
  have hcount : fieldNW w = BitVec.ofNat 11 nw := by rw [← hnw, BitVec.ofNat_toNat, BitVec.setWidth_eq]
  by_cases hres : rsv0 ≠ 0 ∨ rsv1 ≠ 0
  · rw [if_pos hres]
    exact decode_of_reserved (hres.imp hrsv0.not.2 hrsv1.not.2)
  · rw [if_neg hres]
    push Not at hres
    obtain ⟨h0, h1⟩ := hres
    cases hop : opcodeOf (fieldOP w) with
    | none =>
      have hbad := (opcodeOf_eq_none_iff _).1 hop
      rw [fieldOP_toNat] at hbad
      rw [if_pos hbad]
      exact decode_of_reservedOP hop
    | some o =>
      have hval : op = (opcodeValue o).toNat := by
        rw [← (opcodeOf_eq_some_iff _ _).1 hop, fieldOP_toNat]
      rw [decode_of_opcode (hrsv0.2 h0) (hrsv1.2 h1) hop, hval]
      cases o with
      | encrypt | decrypt | keysched => simp [withNW, opcodeValue, hzero]
      | search => simp [withNW_search, opcodeValue, hnw, ← hcount]

/-! ### The listed words -/

/-- The word of SEARCH n as the host writes it (30_encoding.md R85, R90). -/
theorem encode_search_ofNat {n : Nat} (h : n ≤ 1024) :
    encode (.search (BitVec.ofNat 11 n)) = (BitVec.ofNat 32 n <<< 16) ||| 0x4#32 := by
  have hshift : (BitVec.ofNat 32 n <<< 16).toNat = n <<< 16 := by
    rw [BitVec.toNat_shiftLeft, BitVec.toNat_ofNat, Nat.mod_eq_of_lt (by omega), Nat.shiftLeft_eq]
    omega
  have hcount : (BitVec.ofNat 11 n).toNat = n := by
    rw [BitVec.toNat_ofNat]
    omega
  have hlow : (0x4#32).toNat < 2 ^ 16 := by decide
  apply BitVec.eq_of_toNat_eq
  rw [encode_toNat, BitVec.toNat_or, hshift, ← Nat.shiftLeft_add_eq_or_of_lt hlow, Nat.shiftLeft_eq]
  exact congrArg (· * 65536 + 4) hcount

/-- Settles O3: the accepted words are the encodings of the well-formed commands, taken command by command. -/
theorem acceptedWordsAreTheListedOnes : Obligations.AcceptedWordsAreTheListedOnes := by
  intro w i
  rw [decodeAcceptsExactlyEncodings w i]
  cases i with
  | encrypt | decrypt | keysched =>
    simp only [Instr.wf, reduceCtorEq, false_and, and_false, exists_false, true_and, or_false, false_or]
    exact eq_comm
  | search nw =>
    simp only [reduceCtorEq, false_and, false_or, Instr.search.injEq, Instr.wf, nwLegal_iff]
    constructor
    · rintro ⟨⟨hlo, hhi⟩, rfl⟩
      have hnw : nw = BitVec.ofNat 11 nw.toNat := by simp
      exact ⟨nw.toNat, hlo, hhi, hnw, by rw [← encode_search_ofNat hhi, ← hnw]⟩
    · rintro ⟨n, hlo, hhi, rfl, rfl⟩
      have hn : (BitVec.ofNat 11 n).toNat = n := by
        rw [BitVec.toNat_ofNat]
        omega
      exact ⟨hn.symm ▸ ⟨hlo, hhi⟩, encode_search_ofNat hhi⟩

/-- Settles O4: eight closed words, by evaluation of the decoder. -/
theorem writtenOutWordsDecode : Obligations.WrittenOutWordsDecode := by
  unfold Obligations.WrittenOutWordsDecode
  decide

/-- Settles O51: four closed words, and the word of SEARCH n. -/
theorem pseudoInstructionWords : Obligations.PseudoInstructionWords :=
  ⟨rfl, rfl, rfl, rfl, fun _ _ hn => congrArg (Access.write 0x000 .word) (encode_search_ofNat hn)⟩

/-! ### The write of a command word -/

/-- A busy core drops every command (30_encoding.md R86). -/
theorem exec_busy (i : Instr) {s : State} (hb : s.busy = true) : exec i s = .next (raiseCmdError .busyWrite s) := by
  cases i <;> exact congrArg Host.Outcome.next (whenIdle_busy _ hb)

/-- Settles O11: the command is dropped, and recording the error writes ERR and ECODE. -/
theorem commandsWhileBusyAreDropped : Obligations.CommandsWhileBusyAreDropped := fun i _ hb => exec_busy i hb

/-- Settles O12: such a count is not legal, and an idle core then records BAD_ARG. -/
theorem searchCountOutOfRangeIsDropped : Obligations.SearchCountOutOfRangeIsDropped := by
  intro nw s hb hrange
  have hbad : ¬nwLegal nw = true := by
    rw [nwLegal_iff]
    omega
  exact congrArg Host.Outcome.next ((whenIdle_idle _ hb).trans (if_neg hbad))

/-- A busy core drops every word written to CMD (30_encoding.md R86). -/
theorem command_busy (w : BusWord) {s : State} (hb : s.busy = true) :
    command w s = .next (raiseCmdError .busyWrite s) :=
  if_pos hb

/-- An idle core drops an illegal word with the decoder's error (30_encoding.md R86). -/
theorem command_of_illegal {w : BusWord} {code : CmdError} {s : State} (hb : s.busy = false)
    (hd : decode w = .illegal code) : command w s = .next (raiseCmdError code s) := by
  simp [command, hb, hd]

/-- The write of an accepted word is the execution of its command, on a busy core too (30_encoding.md R86). -/
theorem command_of_accept {w : BusWord} {i : Instr} (s : State) (hd : decode w = .accept i) :
    command w s = exec i s := by
  cases hb : s.busy with
  | true => rw [command_busy w hb, exec_busy i hb]
  | false => simp [command, hb, hd]

/-- What acceptance writes: the latch, the snapshots, DONE, BUSY, and the start of the command (30_encoding.md R86). -/
theorem started_eq (i : Instr) (s : State) : started i s = { s with
    opl := some i.opcode, nwl := i.nw, pin := s.din, kin := s.key, tin := s.tgt, done := false, busy := true
    ph := (started i s).ph, workers := (started i s).workers, mergePos := (started i s).mergePos } := by
  cases i <;> rfl

/-- A command other than SEARCH starts in phase KS and leaves the search state alone (30_encoding.md R86). -/
theorem started_of_ne_search {i : Instr} (hi : i.opcode ≠ .search) (s : State) :
    (started i s).ph = .ks ∧ (started i s).workers = s.workers ∧ (started i s).mergePos = s.mergePos := by
  cases i with
  | encrypt | decrypt | keysched => exact ⟨rfl, rfl, rfl⟩
  | search nw => exact absurd rfl hi

/-- Settles O13: a busy core and an illegal word by the lemmas on dropped writes; an accepted word is well formed, so an
idle core starts its command. -/
theorem cmdWriteAcceptsOrDrops : Obligations.CmdWriteAcceptsOrDrops := by
  intro w s
  refine ⟨fun hb => command_busy w hb, fun _ hb hd => command_of_illegal hb hd, fun i hb hd => ?_⟩
  have hstart : command w s = .next (started i s) :=
    (command_of_accept s hd).trans (exec_idle i s hb (decode_wf hd))
  refine ⟨started i s, hstart, started_eq i s, fun hi => started_of_ne_search hi s, ?_⟩
  rintro nw rfl
  exact ⟨rfl, rfl, rfl⟩

/-- Settles O5: the step takes the write, the write reaches CMD, and its word runs as the command it decodes to. -/
theorem stepRunsTheDecodedCommand : Obligations.StepRunsTheDecodedCommand := by
  intro s w i rest hin hd
  calc step s = memWrite 0x000 .word w { s with inputs := rest } := step_of_inputs_cons hin
    _ = command w { s with inputs := rest, resp := some .ok } := memWrite_of_check .cmd w _ rfl
    _ = exec i { s with inputs := rest, resp := some .ok } := command_of_accept _ hd

end Sys2Proof.Machine
end

section
/-! SUPPORT and the obligations of 40_primitives.md: permutations, rotations and S-box lookups, element by element, and
the tables of the core. -/

namespace Sys2Proof.Machine

/-! ### Permutation -/

/-- Element i of Perm(T, s) is the element of s that T lists at i (40_primitives.md R101). -/
theorem bit_perm {n m : Nat} {T : List Nat} (s : BitVec n) {i j : Nat} (hT : T.length = m) (hi : 1 ≤ i)
    (hj : T[i - 1]? = some j) : bit (perm m T s) i = bit s j := by
  obtain ⟨hlt, rfl⟩ := List.getElem?_eq_some_iff.mp hj
  exact (bit_ofBits (T.map (bit s)) (by simpa using hT) i hi (by omega)).trans (List.getElem_map _)

/-- Settles O27: the rule of `bit_perm`. -/
theorem permTakesListedPositions : Obligations.PermTakesListedPositions :=
  fun _ _ _ s _ _ hT hi _ hj => bit_perm s hT hi hj

/-- The table that lists every position at its own place changes nothing. -/
theorem perm_range' {n : Nat} (s : BitVec n) : perm n (List.range' 1 n) s = s :=
  eq_of_bits fun j h1 h2 => bit_perm s List.length_range' h1 (by
    rw [List.getElem?_range' (by omega)]
    congr 1
    omega)

/-- A permutation of a permutation is one by the composed table, when the outer table lists positions of the middle
sequence (40_primitives.md R101, R102). -/
theorem perm_perm {k n m : Nat} {A B : List Nat} (s : BitVec k) (hA : A.length = m) (hB : B.length = n)
    (hv : ∀ a ∈ A, 1 ≤ a ∧ a ≤ n) :
    perm m A (perm n B s : BitVec n) = perm m (A.map fun a => B.getD (a - 1) 0) s := by
  refine eq_of_bits fun i h1 h2 => ?_
  have hlt : i - 1 < A.length := by omega
  obtain ⟨hpos, hle⟩ := hv A[i - 1] (List.getElem_mem hlt)
  have hmid : A[i - 1] - 1 < B.length := by omega
  calc bit (perm m A (perm n B s : BitVec n)) i
      = bit (perm n B s : BitVec n) A[i - 1] := bit_perm _ hA h1 (List.getElem?_eq_getElem hlt)
    _ = bit s B[A[i - 1] - 1] := bit_perm s hB hpos (List.getElem?_eq_getElem hmid)
    _ = bit (perm m (A.map fun a => B.getD (a - 1) 0) s) i := by
      refine (bit_perm s (by simpa using hA) h1 ?_).symm
      simp [hlt, hmid]

/-! ### Rotation -/

/-- Element i+1 of Rol(s, p) is element ((i + p) mod n) + 1 of s (40_primitives.md R103). -/
theorem bit_rol {n : Nat} (s : BitVec n) (p : Nat) {i : Nat} (hi : i < n) :
    bit (rol s p) (i + 1) = bit s ((i + p) % n + 1) :=
  (bit_ofBits ((List.range n).map fun i => bit s ((i + p) % n + 1)) (by simp) (i + 1) (by omega) hi).trans (by simp)

/-- Two sequences are equal when their elements are, counted from 0. -/
theorem eq_of_bits_succ {n : Nat} {s t : BitVec n} (h : ∀ i < n, bit s (i + 1) = bit t (i + 1)) : s = t :=
  eq_of_bits fun j h1 h2 => by
    obtain ⟨i, rfl⟩ := Nat.exists_eq_add_of_le' h1
    exact h i h2

/-- A rotation by a multiple of the length changes nothing. -/
theorem rol_of_mod_eq_zero {n : Nat} (s : BitVec n) {p : Nat} (hp : p % n = 0) : rol s p = s :=
  eq_of_bits_succ fun i hi => by
    have hmod : (i + p) % n = i := by
      rw [← Nat.add_mod_mod, hp]
      exact Nat.mod_eq_of_lt hi
    rw [bit_rol s p hi, hmod]

/-- Rotations add up. -/
theorem rol_rol {n : Nat} (s : BitVec n) (p q : Nat) : rol (rol s p) q = rol s (p + q) :=
  eq_of_bits_succ fun i hi => by
    have hlt : (i + q) % n < n := Nat.mod_lt _ (by omega)
    rw [bit_rol _ q hi, bit_rol s p hlt, bit_rol s (p + q) hi, Nat.mod_add_mod, Nat.add_assoc, Nat.add_comm q p]

/-- Settles O28: the laws of `rol` above; the two examples by evaluation. -/
theorem rotationLaws : Obligations.RotationLaws := fun n s =>
  ⟨fun p _ hi => bit_rol s p hi, rol_of_mod_eq_zero s (Nat.zero_mod n), rol_of_mod_eq_zero s (Nat.mod_self n),
    rol_rol s 1 1, by decide, by decide⟩

/-! ### The tables of the core -/

/-- IPinv undoes IP (40_primitives.md R106): the composed table lists every position at its own place. -/
theorem undoes_tablesOf (v : SboxVariant) : undoes (tablesOf v).ipInv (tablesOf v).ip = true := by
  refine (undoes_iff _ _).mpr fun x => ?_
  have hv : ∀ a ∈ (tablesOf v).ipInv, 1 ≤ a ∧ a ≤ 8 := by simp [tablesOf]
  have hcomp : ((tablesOf v).ipInv.map fun a => (tablesOf v).ip.getD (a - 1) 0) = List.range' 1 8 := rfl
  calc (perm 8 (tablesOf v).ipInv (perm 8 (tablesOf v).ip x : Block) : Block)
      = perm 8 ((tablesOf v).ipInv.map fun a => (tablesOf v).ip.getD (a - 1) 0) x := perm_perm x rfl rfl hv
    _ = x := by rw [hcomp, perm_range']

/-- The entries that differ between the variants are 2-bit values in both (40_primitives.md R113, R114). -/
theorem isSbox_tablesOf (v : SboxVariant) : isSbox (tablesOf v).s0 = true ∧ isSbox (tablesOf v).s1 = true := by
  cases v <;> decide

/-- The table record passes the check of R106 with either variant; only the S-boxes depend on it. -/
theorem tablesWf_tablesOf (v : SboxVariant) : tablesWf (tablesOf v) = true := by
  obtain ⟨hs0, hs1⟩ := isSbox_tablesOf v
  simp only [tablesWf, Bool.and_eq_true, and_assoc]
  exact ⟨rfl, rfl, rfl, rfl, rfl, rfl, rfl, undoes_tablesOf v, rfl, rfl, rfl, rfl, hs0, hs1⟩

/-- Settles O29: the check passes with either variant, so with the one the core has. -/
theorem coreTablesAreValid : Obligations.CoreTablesAreValid := tablesWf_tablesOf Config.sboxVariant

/-! ### Substitution -/

/-- The entry of a place that a matrix has (40_primitives.md R116). -/
theorem sboxEntry_of_getElem? {S : List (List Nat)} {row : List Nat} {r c v : Nat} (hr : S[r]? = some row)
    (hc : row[c]? = some v) : sboxEntry S r c = v := by
  simp [sboxEntry, hr, hc]

/-- An entry of a substitution table is a 2-bit value (40_primitives.md R106). -/
theorem le_three_of_isSbox {S : List (List Nat)} (hS : isSbox S = true) {row : List Nat} {v : Nat} (hrow : row ∈ S)
    (hv : v ∈ row) : v ≤ 3 := by
  simp only [isSbox, Bool.and_eq_true, List.all_eq_true, decide_eq_true_eq] at hS
  obtain ⟨_, hrows⟩ := hS
  obtain ⟨_, hentries⟩ := hrows row hrow
  exact hentries v hv

/-- Settles O30: the lookup is the entry as 2 bits, and the entry is below 4, so no bit of it is lost. -/
theorem sboxLookupPicksRowAndColumn : Obligations.SboxLookupPicksRowAndColumn := by
  intro S h row v hS hr hc
  have hentry : sboxEntry S (sboxRow h) (sboxCol h) = v := sboxEntry_of_getElem? hr hc
  have hle : v ≤ 3 := le_three_of_isSbox hS (List.mem_of_getElem? hr) (List.mem_of_getElem? hc)
  rw [sLook, hentry, BitVec.toNat_ofNat]
  omega

/-! ### Expansion -/

/-- The expansion of a half-block holds element j of it wherever EP lists j (40_primitives.md R111, R120). -/
theorem bit_expand (r : Half) {i j : Nat} (hi : 1 ≤ i) (hj : [4, 1, 2, 3, 2, 3, 4, 1][i - 1]? = some j) :
    bit (perm 8 coreTables.ep r : BitVec 8) i = bit r j :=
  bit_perm (T := coreTables.ep) r rfl hi hj

/-- Equal expansions come from equal half-blocks: EP lists every position of the half-block (40_primitives.md R120). -/
theorem expand_injective {r s : Half} (h : (perm 8 coreTables.ep r : BitVec 8) = perm 8 coreTables.ep s) : r = s := by
  have hbit {i j : Nat} (hi : 1 ≤ i) (hj : [4, 1, 2, 3, 2, 3, 4, 1][i - 1]? = some j) : bit r j = bit s j := by
    rw [← bit_expand r hi hj, h, bit_expand s hi hj]
  refine eq_of_bits fun j h1 h4 => ?_
  obtain rfl | rfl | rfl | rfl : j = 1 ∨ j = 2 ∨ j = 3 ∨ j = 4 := by omega
  · exact hbit (i := 2) (by decide) rfl
  · exact hbit (i := 3) (by decide) rfl
  · exact hbit (i := 4) (by decide) rfl
  · exact hbit (i := 1) (by decide) rfl

/-- Settles O31: the eight places are read off EP, and they determine the half-block. -/
theorem expansionLosesNoBit : Obligations.ExpansionLosesNoBit := by
  refine ⟨fun r => ⟨?_, ?_, ?_, ?_, ?_, ?_, ?_, ?_⟩, fun _ _ => expand_injective⟩
  all_goals exact bit_expand r (by decide) rfl

end Sys2Proof.Machine
end

section
/-! SUPPORT and the obligations of 41_key_schedule.md: the key schedule as a choice of key bits, the keys it does not
tell apart, and the KEYSCHED command. -/

namespace Sys2Proof.Machine

/-! ### The net rotation -/

/-- Two rotations of the halves by 1 are one rotation of each by 2 (41_key_schedule.md R141). -/
theorem rotateHalves_rotateHalves (x : BitVec 10) :
    rotateHalves (rotateHalves x) = rol (left 5 x) 2 ++ rol (right 5 x) 2 := by
  simp only [rotateHalves, left5_append, right5_append, rol_rol]

/-- Settles O32: k2 is P8 of the halves rotated twice by 1. -/
theorem netRotationIsTwo : Obligations.NetRotationIsTwo := fun T k =>
  congrArg (perm 8 T.p8) (rotateHalves_rotateHalves (perm 10 T.p10 k))

/-! ### Subkey bits -/

/-- The elements of a permutation, first to last, are those its table lists (40_primitives.md R101). -/
theorem bits_perm {n m : Nat} {T : List Nat} (s : BitVec n) (hT : T.length = m) :
    ((List.range m).map fun i => bit (perm m T s) (i + 1)) = T.map (bit s) := by
  refine List.ext_getElem (by simp [hT]) fun i _ hi => ?_
  rw [List.length_map] at hi
  simpa using bit_perm s hT (Nat.le_add_left 1 i) (List.getElem?_eq_getElem hi)

/-- A permutation tells two sequences apart exactly by the positions its table lists. -/
theorem perm_eq_perm_iff {n m : Nat} {T : List Nat} {s t : BitVec n} (hT : T.length = m) :
    perm m T s = perm m T t ↔ ∀ j ∈ T, bit s j = bit t j := by
  rw [← List.map_inj_left]
  refine ⟨fun h => ?_, fun h => congrArg (ofBits m) h⟩
  rw [← bits_perm s hT, ← bits_perm t hT, h]

/-- Each element of the rotated halves comes from its successor, the last of a half from the first
(41_key_schedule.md R140). -/
theorem bit_rotateHalves (x : BitVec 10) {j : Nat} (h1 : 1 ≤ j) (h2 : j ≤ 10) :
    bit (rotateHalves x) j = bit x (if j ≤ 5 then j % 5 + 1 else j % 5 + 6) := by
  have hlt : j % 5 < 5 := Nat.mod_lt j (by decide)
  rw [rotateHalves, bit_append5 _ _ j h1 h2]
  split
  · obtain ⟨i, rfl⟩ := Nat.exists_eq_add_of_le' h1
    rw [bit_rol _ 1 (by omega), bit_left5 x _ (by omega) (by omega)]
  · obtain ⟨i, rfl⟩ : ∃ i, j = i + 1 + 5 := ⟨j - 6, by omega⟩
    rw [Nat.add_sub_cancel, bit_rol _ 1 (by omega), bit_right5 x _ (by omega) (by omega), Nat.add_mod_right]

/-- The positions that the rotation of both halves by 1 takes its elements from. -/
def rotationTable : List Nat := [2, 3, 4, 5, 1, 7, 8, 9, 10, 6]

/-- The rotation of both halves by 1 is a permutation of the ten positions. -/
theorem rotateHalves_eq_perm (x : BitVec 10) : rotateHalves x = perm 10 rotationTable x := by
  have htable : ∀ j ≤ 10, 1 ≤ j → rotationTable[j - 1]? = some (if j ≤ 5 then j % 5 + 1 else j % 5 + 6) := by
    decide
  exact eq_of_bits fun j h1 h2 => (bit_rotateHalves x h1 h2).trans (bit_perm x rfl h1 (htable j h2 h1)).symm

/-- The rotation of a permuted key is a permutation of the key. -/
theorem rotateHalves_perm {T : List Nat} (k : Key) (hT : T.length = 10) :
    rotateHalves (perm 10 T k) = perm 10 (rotationTable.map fun a => T.getD (a - 1) 0) k :=
  (rotateHalves_eq_perm _).trans (perm_perm k rfl hT (by decide))

/-- The key positions of k1, first to last (41_key_schedule.md R144). -/
def k1Positions : List Nat := [1, 7, 9, 4, 8, 3, 10, 6]

/-- The key positions of k2, first to last (41_key_schedule.md R144). -/
def k2Positions : List Nat := [9, 4, 8, 3, 6, 5, 1, 10]

/-- P8 of a permuted key is a permutation of the key: P8 lists existing positions only (40_primitives.md R102). -/
theorem p8_perm {T : List Nat} (k : Key) (hT : T.length = 10) :
    perm 8 coreTables.p8 (perm 10 T k : BitVec 10) = perm 8 (coreTables.p8.map fun a => T.getD (a - 1) 0) k :=
  perm_perm k rfl hT (by simp [coreTables, tablesOf])

/-- k1 is a permutation of the key (41_key_schedule.md R144). -/
theorem keySchedule_fst (k : Key) : (keySchedule coreTables k).1 = perm 8 k1Positions k :=
  calc (keySchedule coreTables k).1
      = perm 8 coreTables.p8 (rotateHalves (perm 10 coreTables.p10 k)) := rfl
    _ = perm 8 coreTables.p8 (perm 10 [5, 2, 7, 4, 3, 1, 9, 8, 6, 10] k : BitVec 10) := by
      rw [rotateHalves_perm k rfl]
      rfl
    _ = perm 8 k1Positions k := p8_perm k rfl

/-- k2 is a permutation of the key (41_key_schedule.md R144). -/
theorem keySchedule_snd (k : Key) : (keySchedule coreTables k).2 = perm 8 k2Positions k :=
  calc (keySchedule coreTables k).2
      = perm 8 coreTables.p8 (rotateHalves (rotateHalves (perm 10 coreTables.p10 k))) := rfl
    _ = perm 8 coreTables.p8 (perm 10 [2, 7, 4, 3, 5, 9, 8, 6, 10, 1] k : BitVec 10) := by
      rw [rotateHalves_perm k rfl, rotateHalves_perm k rfl]
      rfl
    _ = perm 8 k2Positions k := p8_perm k rfl

/-! ### Twin keys -/

/-- Two keys have the same subkeys exactly when they agree but in the second element: the two tables of R144 together
list every other position. -/
theorem keySchedule_eq_iff (k l : Key) :
    keySchedule coreTables k = keySchedule coreTables l ↔ ∀ j, 1 ≤ j → j ≤ 10 → j ≠ 2 → bit k j = bit l j := by
  have hused (j : Nat) : j ∈ k1Positions ∨ j ∈ k2Positions ↔ 1 ≤ j ∧ j ≤ 10 ∧ j ≠ 2 := by
    simp only [k1Positions, k2Positions, List.mem_cons, List.not_mem_nil, or_false]
    omega
  simp only [Prod.ext_iff, keySchedule_fst, keySchedule_snd, perm_eq_perm_iff (show k1Positions.length = 8 from rfl),
    perm_eq_perm_iff (show k2Positions.length = 8 from rfl), ← List.forall_mem_append, List.mem_append, hused, and_imp]

/-- The twin of a key differs from it in the second element only (00_scope.md R12). -/
theorem bit_twin (k : Key) {j : Nat} (hj : j ≤ 10) : bit (k ^^^ 0x100#10) j = (bit k j ^^ decide (j = 2)) := by
  have hmask : ∀ j ≤ 10, bit 0x100#10 j = decide (j = 2) := by decide
  rw [bit_xor, hmask j hj]

/-- Keys that agree but in the second element are equal or twins. -/
theorem eq_or_eq_twin_iff (k l : Key) :
    (l = k ∨ l = k ^^^ 0x100#10) ↔ ∀ j, 1 ≤ j → j ≤ 10 → j ≠ 2 → bit k j = bit l j := by
  constructor
  · rintro (rfl | rfl) j - h2 hj
    · rfl
    · simp [bit_twin k h2, hj]
  · intro h
    by_cases hb : bit l 2 = bit k 2
    · refine .inl (eq_of_bits fun j h1 h2 => ?_)
      by_cases hj : j = 2
      · rw [hj, hb]
      · exact (h j h1 h2 hj).symm
    · refine .inr (eq_of_bits fun j h1 h2 => ?_)
      by_cases hj : j = 2
      · subst hj
        simpa [bit_twin k h2] using Bool.eq_not.mpr hb
      · simp [bit_twin k h2, hj, h j h1 h2 hj]

/-- Settles O33: the subkeys are permutations of the key, by tables that together list every position but the second. -/
theorem subkeyBitsAndTwinKeys : Obligations.SubkeyBitsAndTwinKeys := by
  refine ⟨fun k => ?_, fun k l => (keySchedule_eq_iff k l).trans (eq_or_eq_twin_iff k l).symm⟩
  rw [keySchedule_fst, keySchedule_snd]
  exact ⟨bits_perm k rfl, bits_perm k rfl⟩

/-! ### The command -/

/-- The completion of an accepted KEYSCHED (41_key_schedule.md R143). -/
theorem coreMove_complete_keysched {s : State} (hb : s.busy = true) (ho : s.opl = some .keysched) (hp : s.ph = .ks) :
    coreMove .complete s = .next (finishKeysched s) := by
  simp only [coreMove_complete_of_busy hb, complete, ho, completeKeysched, phaseKeysched, hp]

/-- SUBKEY after a KEYSCHED: k2 above k1 (41_key_schedule.md R143, 10_state.md R25). -/
theorem finishKeysched_subkey (s : State) :
    (finishKeysched s).subkey = (keySchedule coreTables s.kin).2 ++ (keySchedule coreTables s.kin).1 := rfl

/-- Settles O9: acceptance starts KEYSCHED in the phase KS, and its completion joins the two subkeys of KEY. -/
theorem keyschedIsAcceptedAndCompletes : Obligations.KeyschedIsAcceptedAndCompletes := by
  intro s hb
  refine ⟨started .keysched s, finishKeysched (started .keysched s), exec_idle .keysched s hb rfl, rfl,
    coreMove_complete_keysched rfl rfl rfl, rfl, ?_, ?_⟩
  · rw [finishKeysched_subkey]
    exact BitVec.extractLsb'_append_eq_right
  · rw [finishKeysched_subkey]
    exact BitVec.extractLsb'_append_eq_left

end Sys2Proof.Machine
end

section
/-! SUPPORT and the obligations of 42_cipher.md: the network undone with its subkeys exchanged, the phases one move at a
time, and the ENCRYPT and DECRYPT commands. -/

namespace Sys2Proof.Machine

/-! ### The network undone -/

/-- A check that IPinv undoes IP is a check that IP undoes IPinv: there are finitely many blocks (40_primitives.md
R106). -/
theorem perm_perm_of_undoes {ipInv ip : List Nat} (h : undoes ipInv ip = true) (x : Block) :
    (perm 8 ip (perm 8 ipInv x : Block) : Block) = x := by
  have hleft : Function.LeftInverse (perm 8 ipInv : Block → Block) (perm 8 ip) := (undoes_iff ipInv ip).mp h
  have hsurj : Function.Surjective (perm 8 ip : Block → Block) := Finite.surjective_of_injective hleft.injective
  exact hleft.rightInverse_of_surjective hsurj x

/-- The two rounds and the swap between them, without the permutations around them (42_cipher.md R160). -/
def rounds (T : Tables) (ka kb : Subkey) (y : Block) : Block :=
  let l1 := left 4 y ^^^ roundF T (right 4 y) ka
  (right 4 y ^^^ roundF T l1 kb) ++ l1

/-- The network is its rounds between IP and IPinv (42_cipher.md R160). -/
theorem feistel_eq (T : Tables) (ka kb : Subkey) (x : Block) :
    feistel T ka kb x = perm 8 T.ipInv (rounds T ka kb (perm 8 T.ip x)) := rfl

/-- The rounds with their subkeys exchanged undo the rounds: each adds the same round value again, to the same half, so
nothing about the round function is needed (42_cipher.md R166). -/
theorem rounds_rounds (T : Tables) (ka kb : Subkey) (y : Block) : rounds T kb ka (rounds T ka kb y) = y := by
  simp only [rounds, left_append, right_append, BitVec.xor_assoc, BitVec.xor_self, BitVec.xor_zero, left_append_right]

/-- The network with its subkeys exchanged undoes the network (42_cipher.md R166). -/
theorem feistel_feistel {T : Tables} (hT : undoes T.ipInv T.ip = true) (ka kb : Subkey) (x : Block) :
    feistel T kb ka (feistel T ka kb x) = x := by
  rw [feistel_eq, feistel_eq, perm_perm_of_undoes hT, rounds_rounds]
  exact (undoes_iff T.ipInv T.ip).mp hT x

/-- Settles O34: ENCRYPT and DECRYPT are the network with exchanged subkeys. -/
theorem decryptUndoesEncrypt : Obligations.DecryptUndoesEncrypt := fun _ p _ hT =>
  ⟨feistel_feistel hT _ _ p, feistel_feistel hT _ _ p⟩

/-! ### A running ENCRYPT or DECRYPT -/

/-- The opcode that runs a block through the engine this way. -/
def Way.opcode : Way → Opcode
  | .encrypting => .encrypt
  | .decrypting => .decrypt

/-- The core runs ENCRYPT or DECRYPT. -/
structure RunsCipher (way : Way) (s : State) : Prop where
  busy : s.busy = true
  opl : s.opl = some way.opcode

/-- A silent move leaves the command running. -/
theorem RunsCipher.of_silent {way : Way} {s t : State} (h : RunsCipher way s) (hs : Silent s t) : RunsCipher way t := by
  obtain ⟨_, _, _, _, rfl⟩ := hs
  exact ⟨h.busy, h.opl⟩

/-- A phase move of a running ENCRYPT or DECRYPT is a phase of the engine (42_cipher.md R162). -/
theorem RunsCipher.event_phase {way : Way} {s : State} (h : RunsCipher way s) :
    event (.core .phase) s = phaseCipher way s := by
  cases way <;> simp only [event, coreMove, h.busy, if_true, movePhase, h.opl, Way.opcode]

/-- The completion of a running ENCRYPT or DECRYPT (70_reset_and_hazards.md R278). -/
theorem RunsCipher.coreMove_complete {way : Way} {s : State} (h : RunsCipher way s) :
    coreMove .complete s = completeCipher way s := by
  rw [coreMove_complete_of_busy h.busy]
  cases way <;> simp only [complete, h.opl, Way.opcode]

/-- The completion from the first phase, whatever the working registers hold there (42_cipher.md R162). -/
theorem completeCipher_of_ks (way : Way) {s : State} (hp : s.ph = .ks) :
    ∃ d, completeCipher way s = .next (blockPublished way s d) :=
  completeCipher_eq (by simp only [cipherInv, hp])

/-- Settles O7: acceptance starts ENCRYPT in the phase KS, and its completion publishes the block of R160. -/
theorem encryptIsAcceptedAndCompletes : Obligations.EncryptIsAcceptedAndCompletes := by
  intro s hb
  have hrun : RunsCipher .encrypting (started .encrypt s) := ⟨rfl, rfl⟩
  obtain ⟨d, hd⟩ := completeCipher_of_ks .encrypting (s := started .encrypt s) rfl
  exact ⟨_, _, exec_idle .encrypt s hb rfl, rfl, hrun.coreMove_complete.trans hd, rfl⟩

/-- Settles O8: acceptance starts DECRYPT in the phase KS, and its completion publishes the block of R161. -/
theorem decryptIsAcceptedAndCompletes : Obligations.DecryptIsAcceptedAndCompletes := by
  intro s hb
  have hrun : RunsCipher .decrypting (started .decrypt s) := ⟨rfl, rfl⟩
  obtain ⟨d, hd⟩ := completeCipher_of_ks .decrypting (s := started .decrypt s) rfl
  exact ⟨_, _, exec_idle .decrypt s hb rfl, rfl, hrun.coreMove_complete.trans hd, rfl⟩

/-! ### The phases, one move at a time -/

/-- How many phases of R162 a command at this phase has left. -/
def phasesLeft : Phase → Nat
  | .idle => 0
  | .ks => 6
  | .ip => 5
  | .r1 => 4
  | .sw => 3
  | .r2 => 2
  | .fp => 1

/-- A phase before the last is silent and leaves one phase less, toward the same completion (42_cipher.md R162). -/
theorem phaseCipher_before_last (way : Way) {s : State} (h : 1 < phasesLeft s.ph) :
    ∃ t, phaseCipher way s = .next t ∧ Silent s t ∧ phasesLeft s.ph = phasesLeft t.ph + 1 ∧
      completeCipher way t = completeCipher way s := by
  unfold phaseCipher completeCipher
  match hp : s.ph with
  | .idle | .fp => simp [hp, phasesLeft] at h
  | .ks => exact ⟨_, rfl, phaseKS_silent way s, rfl, rfl⟩
  | .ip => exact ⟨_, rfl, phaseIP_silent s, rfl, rfl⟩
  | .r1 => exact ⟨_, rfl, phaseR1_silent s, rfl, rfl⟩
  | .sw => exact ⟨_, rfl, phaseSW_silent s, rfl, rfl⟩
  | .r2 => exact ⟨_, rfl, phaseR2_silent s, rfl, rfl⟩

/-- The last phase is the completion (42_cipher.md R162). -/
theorem phaseCipher_last (way : Way) {s : State} (h : phasesLeft s.ph = 1) :
    phaseCipher way s = completeCipher way s := by
  unfold phaseCipher completeCipher
  cases hp : s.ph with
  | fp => rfl
  | idle | ks | ip | r1 | sw | r2 => simp [hp, phasesLeft] at h

/-- A run goes on from the state its first event leaves. -/
theorem runEvents_cons {e : Event} {s t : State} (h : event e s = .next t) (es : List Event) :
    runEvents (e :: es) s = runEvents es t := by
  simp only [runEvents, h]

/-- Fewer phase moves than there are phases left run silently. -/
theorem runEvents_phases_silent {way : Way} {n : Nat} {s : State} (hs : RunsCipher way s) (hn : n < phasesLeft s.ph) :
    ∃ t, runEvents (List.replicate n (.core .phase)) s = .next t ∧ Silent s t := by
  induction n generalizing s with
  | zero => exact ⟨s, rfl, Silent.refl s⟩
  | succ n ih =>
    obtain ⟨t, ht, hst, hleft, -⟩ := phaseCipher_before_last way (s := s) (by omega)
    obtain ⟨u, hu, htu⟩ := ih (hs.of_silent hst) (by omega)
    exact ⟨u, (runEvents_cons (hs.event_phase.trans ht) _).trans hu, hst.trans htu⟩

/-- As many phase moves as there are phases left are the completion. -/
theorem runEvents_phases_complete {way : Way} {n : Nat} {s t : State} (hs : RunsCipher way s)
    (hn : phasesLeft s.ph = n + 1) (hc : completeCipher way s = .next t) :
    runEvents (List.replicate (n + 1) (.core .phase)) s = .next t := by
  induction n generalizing s with
  | zero => exact runEvents_cons (hs.event_phase.trans ((phaseCipher_last way hn).trans hc)) []
  | succ n ih =>
    obtain ⟨u, hu, hsu, hleft, hsame⟩ := phaseCipher_before_last way (s := s) (by omega)
    exact (runEvents_cons (hs.event_phase.trans hu) _).trans (ih (hs.of_silent hsu) (by omega) (hsame.trans hc))

/-- The host sees nothing of a silent move: no register and no interrupt depends on the engine's own registers. -/
theorem Silent.sameToHost {s t : State} (h : Silent s t) : sameToHost s t := by
  obtain ⟨_, _, _, _, rfl⟩ := h
  exact ⟨fun reg => by cases reg <;> rfl, rfl⟩

/-- Settles O35: six phases are left in the phase KS, so fewer moves are silent and six are the completion, which
publishes the block of R160 or R161. -/
theorem phasesComputeTheCipher : Obligations.PhasesComputeTheCipher := by
  intro way s hb hp ho
  have hrun : RunsCipher way s := ⟨hb, ho⟩
  have hleft : phasesLeft s.ph = 6 := congrArg phasesLeft hp
  refine ⟨fun n hn => ?_, ?_⟩
  · obtain ⟨t, ht, hst⟩ := runEvents_phases_silent hrun (hleft.symm ▸ hn)
    exact ⟨t, ht, hst.sameToHost⟩
  · obtain ⟨d, hd⟩ := completeCipher_of_ks way hp
    exact ⟨_, runEvents_phases_complete hrun hleft hd, by cases way <;> rfl⟩

end Sys2Proof.Machine
end

section
/-! SUPPORT and the obligations of 43_key_search.md: the partition, what a result lists, the twin pairs, the buffers at the
join, and the SEARCH command. -/

namespace Sys2Proof.Machine

/-! ### The partition -/

/-- The ranges follow each other in worker order (43_key_search.md R192). -/
theorem partHi_le_partLo {n v w : Nat} (hvw : v < w) (hw : w < n) : partHi n v ≤ partLo n w := by
  rw [partHi_eq_partLo_succ (by omega)]
  exact Nat.mul_le_mul_right (1024 / n) hvw

/-- No candidate lies in two ranges (43_key_search.md R193). -/
theorem worker_unique {n v w i : Nat} (hv : v < n) (hw : w < n) (hvlo : partLo n v ≤ i) (hvhi : i < partHi n v)
    (hwlo : partLo n w ≤ i) (hwhi : i < partHi n w) : v = w := by
  rcases Nat.lt_trichotomy v w with h | h | h
  · have := partHi_le_partLo h hw
    omega
  · exact h
  · have := partHi_le_partLo h hv
    omega

/-- A candidate below the end of a range lies in that range or in one before it: the ranges leave no gap. -/
theorem exists_worker_of_lt_partHi {n k i : Nat} (hk : k < n) (hi : i < partHi n k) :
    ∃ w, w < n ∧ partLo n w ≤ i ∧ i < partHi n w := by
  induction k with
  | zero => exact ⟨0, hk, by simp [partLo_zero], hi⟩
  | succ k ih =>
    by_cases hlo : partLo n (k + 1) ≤ i
    · exact ⟨k + 1, hk, hlo, hi⟩
    · exact ih (by omega) (by rw [partHi_eq_partLo_succ hk]; omega)

/-- Settles O36: the ranges leave no gap up to the end of the last, which is 1024, and no two of them overlap. -/
theorem partitionCoversEachCandidateOnce : Obligations.PartitionCoversEachCandidateOnce := by
  intro n h1 h2
  refine ⟨partLo_zero n, partHi_last n, fun w hw => partLo_lt_partHi h1 h2 hw, fun w hw => partHi_eq_partLo_succ hw, ?_⟩
  intro i hi
  obtain ⟨w, hw, hlo, hhi⟩ := exists_worker_of_lt_partHi (show n - 1 < n by omega) (hi.trans_eq (partHi_last n).symm)
  exact ⟨w, ⟨hw, hlo, hhi⟩, fun v hv hvlo hvhi => worker_unique hv hw hvlo hvhi hlo hhi⟩

/-! ### What a result lists -/

/-- Every key is the key of its own number (43_key_search.md R191). -/
theorem intToKey_of_toNat (k : Key) : intToKey k.toNat = k := BitVec.eq_of_toNat_eq (intToKey_toNat k.isLt)

/-- A result lists the keys that match, and no other (43_key_search.md R190). -/
theorem mem_searchKeys_iff (T : Tables) (p c : Block) (k : Key) : k ∈ searchKeys T p c ↔ encrypt T p k = c := by
  simp only [searchKeys, matchesIn, List.mem_map, List.mem_filter, isMatch, beq_iff_eq]
  constructor
  · rintro ⟨i, ⟨-, hmatch⟩, rfl⟩
    exact hmatch
  · intro hmatch
    have hk : k.toNat < 1024 := k.isLt
    exact ⟨k.toNat, ⟨by simp [hk], by rwa [intToKey_of_toNat]⟩, intToKey_of_toNat k⟩

/-- A result lists no key twice: it is ascending. -/
theorem searchKeys_nodup (T : Tables) (p c : Block) : (searchKeys T p c).Nodup :=
  (searchKeys_ascending T p c).imp fun hlt heq => hlt.ne (congrArg BitVec.toNat heq)

/-- Settles O37: a result lists the keys that match, in ascending order. -/
theorem searchFindsExactlyTheMatches : Obligations.SearchFindsExactlyTheMatches := fun T p c =>
  ⟨mem_searchKeys_iff T p c, searchKeys_ascending T p c, searchKeys_length_le T p c,
    fun k => (mem_searchKeys_iff T p _ k).mpr rfl⟩

/-! ### Twin pairs -/

/-- Twin keys encrypt alike: their subkeys are the same (41_key_schedule.md R144). -/
theorem encrypt_twin (p : Block) (k : Key) : encrypt coreTables p (k ^^^ 0x100#10) = encrypt coreTables p k := by
  have hks : keySchedule coreTables k = keySchedule coreTables (k ^^^ 0x100#10) :=
    (subkeyBitsAndTwinKeys.2 k _).mpr (.inr rfl)
  simp only [encrypt, hks]

/-- The twin of a twin is the key itself. -/
theorem twin_twin (k : Key) : k ^^^ 0x100#10 ^^^ 0x100#10 = k := by
  rw [BitVec.xor_assoc, BitVec.xor_self, BitVec.xor_zero]

/-- No key is its own twin: they differ in the second element. -/
theorem twin_ne_self (k : Key) : k ^^^ 0x100#10 ≠ k := by
  intro h
  have := bit_twin k (j := 2) (by decide)
  simp [h] at this

/-- A list without repetition that a pairing without fixed points maps into itself has even length. -/
theorem even_length_of_pairing {α : Type} [DecidableEq α] {l : List α} (hl : l.Nodup) {g : α → α}
    (hgg : ∀ a, g (g a) = a) (hne : ∀ a, g a ≠ a) (hmem : ∀ a ∈ l, g a ∈ l) : Even l.length := by
  have hsum : ∑ _a ∈ l.toFinset, (1 : ZMod 2) = 0 :=
    Finset.sum_involution (fun a _ => g a) (fun _ _ => by decide) (fun a _ _ => hne a)
      (fun a ha => List.mem_toFinset.mpr (hmem a (List.mem_toFinset.mp ha))) (fun a _ => hgg a)
  rw [Finset.sum_const, List.toFinset_card_of_nodup hl, nsmul_one] at hsum
  exact ZMod.natCast_eq_zero_iff_even.mp hsum

/-- Settles O39: twins encrypt alike, so taking the twin pairs the keys of a result. -/
theorem matchesComeInTwinPairs : Obligations.MatchesComeInTwinPairs := by
  intro p c
  have htwin (k : Key) : k ∈ searchKeys coreTables p c ↔ k ^^^ 0x100#10 ∈ searchKeys coreTables p c := by
    rw [mem_searchKeys_iff, mem_searchKeys_iff, encrypt_twin]
  exact ⟨htwin, Nat.even_iff.mp <|
    even_length_of_pairing (searchKeys_nodup _ p c) twin_twin twin_ne_self fun k => (htwin k).mp⟩

/-! ### The buffers at the join -/

/-- A finished worker holds the matches of its whole range (43_key_search.md R194). -/
theorem workerInv.lb_of_fin {T : Tables} {p c : Block} {w : Worker} (h : workerInv T p c w) (hf : w.fin = true) :
    w.lb = matchesIn T p c w.lo w.hi := by
  rw [h.found, h.ended hf]

/-- In a state of the invariant, a running SEARCH is in order. -/
theorem Inv.searchInv_of_search {s : State} (hi : Inv s) (hb : s.busy = true) (ho : s.opl = some .search) :
    searchInv s := by
  have hr := hi.running hb
  simp only [runningInv, ho] at hr
  exact hr.2

/-- Settles O38: at the join each buffer holds the matches of its worker's range, and the ranges are those of R192. -/
theorem mergedBuffersAreTheWholeSearch : Obligations.MergedBuffersAreTheWholeSearch := by
  intro s hi hb ho hf
  have hs := hi.searchInv_of_search hb ho
  exact flatten_found hs _ fun w hw => (hs.each w hw).lb_of_fin (List.all_eq_true.mp hf w hw)

/-! ### The command -/

/-- The completion of a running SEARCH (43_key_search.md R198). -/
theorem coreMove_complete_search {s : State} (hb : s.busy = true) (ho : s.opl = some .search) :
    coreMove .complete s = completeSearch s := by
  simp only [coreMove_complete_of_busy hb, complete, ho]

/-- Settles O10: acceptance sets up the workers of R192, and the completion of a search so begun publishes the list of
R190. -/
theorem searchIsAcceptedAndCompletes : Obligations.SearchIsAcceptedAndCompletes := by
  intro s nw hb h1 h2
  have hlegal : nwLegal nw = true := (nwLegal_iff nw).mpr ⟨h1, h2⟩
  have hs : searchInv (started (.search nw) s) := newWorkers_searchInv hlegal rfl rfl
  exact ⟨_, _, exec_idle (.search nw) s hb hlegal, rfl, (coreMove_complete_search rfl rfl).trans (completeSearch_eq hs), rfl⟩

end Sys2Proof.Machine
end

section
/-! SUPPORT and the obligations of 60_exceptions.md: the error a CMD write records, what keeps and clears it, the
interrupt line, and that no state of the invariant stops. -/

namespace Sys2Proof.Machine

/-! ### Recording a command error -/

/-- The first error since ERR was 0 is recorded (60_exceptions.md R233). -/
theorem raiseCmdError_of_no_err (c : CmdError) {s : State} (h : s.err = false) :
    raiseCmdError c s = { s with err := true, ecode := ecodeOf c } := by
  simp [raiseCmdError, flagsError, h]

/-- A further error changes nothing (60_exceptions.md R233). -/
theorem raiseCmdError_of_err (c : CmdError) {s : State} (h : s.err = true) : raiseCmdError c s = s := by
  calc raiseCmdError c s = { s with err := true } := by simp [raiseCmdError, flagsError, h]
    _ = s := by rw [← h]

/-! ### The one code of a CMD write -/

/-- The decoder's checks for ILLEGAL_CMD: a reserved field, a reserved OP, or a worker count of a command without
workers (30_encoding.md R85). -/
theorem decode_eq_illegalCmd {w : BusWord} (h : w.toNat / 16 % 4096 ≠ 0 ∨ w.toNat / 134217728 ≠ 0 ∨
      w.toNat % 16 = 0 ∨ 4 < w.toNat % 16 ∨ (w.toNat % 16 ≠ 4 ∧ w.toNat / 65536 % 2048 ≠ 0)) :
    decode w = .illegal .illegalCmd := by
  rw [decodeSortsEveryWord w]
  split_ifs with hrsv hop hnw
  · rfl
  · rfl
  · rfl
  all_goals omega

/-- The decoder's check for BAD_ARG: a SEARCH in legal form whose worker count is out of range (30_encoding.md R85). -/
theorem decode_eq_badArg {w : BusWord} (h0 : w.toNat / 16 % 4096 = 0) (h1 : w.toNat / 134217728 = 0)
    (hop : w.toNat % 16 = 4) (hnw : w.toNat / 65536 % 2048 = 0 ∨ 1024 < w.toNat / 65536 % 2048) :
    decode w = .illegal .badArg := by
  rw [decodeSortsEveryWord w]
  simp [h0, h1, hop, hnw]

/-- Settles O14: BUSY is looked at before the word; on an idle core the decoder's error is the one recorded. -/
theorem cmdWriteErrorPriority : Obligations.CmdWriteErrorPriority := fun w _ =>
  ⟨fun hb => command_busy w hb,
    fun hb h => command_of_illegal hb (decode_eq_illegalCmd h),
    fun hb h0 h1 hop hnw => command_of_illegal hb (decode_eq_badArg h0 h1 hop hnw)⟩

/-! ### No state of the invariant stops -/

/-- From a state of the invariant every event happens: a host access is always answered, a CORE move always finds its
command (60_exceptions.md R230). -/
theorem exists_event_next {s : State} (hi : Inv s) (e : Event) : ∃ t, event e s = .next t := by
  cases e with
  | access a =>
    obtain ⟨t, ht, -⟩ := hostAccess_cases a s
    exact ⟨t, ht⟩
  | core m =>
    obtain ⟨t, ht, -⟩ := coreMove_cases hi m
    exact ⟨t, ht⟩
  | reset => exact ⟨resetEvent s, rfl⟩

/-- Settles O42: with no event listed the step is the completion, with one listed it is that event. -/
theorem invariantStatesNeverStop : Obligations.InvariantStatesNeverStop := by
  intro s hi
  cases hin : s.inputs with
  | nil =>
    rw [step_of_inputs_nil hin]
    exact exists_event_next hi (.core .complete)
  | cons e es =>
    rw [step_of_inputs_cons hin]
    exact exists_event_next (inv_inputs hi es) e

/-! ### The return: the write of STATUS -/

/-- Bit 1 of a write of STATUS clears DONE only (60_exceptions.md R240). -/
theorem clearStatus_done_bit (s : State) : clearStatus 0x00000002#32 s = { s with done := false } :=
  clearStatus_eq 0x00000002#32 s

/-- Bit 2 of a write of STATUS clears ERR and ECODE only (60_exceptions.md R240). -/
theorem clearStatus_err_bit (s : State) : clearStatus 0x00000004#32 s = { s with err := false, ecode := 0#3 } :=
  clearStatus_eq 0x00000004#32 s

/-- Both bits clear DONE, ERR and ECODE only (60_exceptions.md R240). -/
theorem clearStatus_both_bits (s : State) :
    clearStatus 0x00000006#32 s = { s with done := false, err := false, ecode := 0#3 } :=
  clearStatus_eq 0x00000006#32 s

/-- CLR passes the access check and is the write of both bits (60_exceptions.md R240). -/
theorem hostAccess_clr (s : State) : hostAccess clr s = .next (clearStatus 0x00000006#32 (respond .ok s)) :=
  memWrite_of_check (off := 0x004) .status 0x00000006#32 s rfl

/-- Settles O23: each write by the bits it sets, and CLR as the write of both. -/
theorem statusWriteIsTheReturn : Obligations.StatusWriteIsTheReturn := fun s =>
  ⟨clearStatus_done_bit s, clearStatus_err_bit s, clearStatus_both_bits s,
    (hostAccess_clr s).trans (congrArg Host.Outcome.next (clearStatus_both_bits _))⟩

/-! ### Errors and completions -/

/-- A silent move shows nothing in DONE, ERR and ECODE; a publication sets DONE and leaves ERR and ECODE
(60_exceptions.md R241). -/
theorem CompletedAs.sets_done_keeps_err {op : Opcode} {s t : State} (h : CompletedAs op s t) :
    t.done = true ∧ t.err = s.err ∧ t.ecode = s.ecode := by
  obtain ⟨u, ⟨ph, d, ws, mp, rfl⟩, hp⟩ := h
  cases op with
  | encrypt | decrypt | keysched => obtain ⟨v, rfl⟩ := hp; exact ⟨rfl, rfl, rfl⟩
  | search => obtain ⟨n, l, rfl⟩ := hp; exact ⟨rfl, rfl, rfl⟩

/-- Settles O15: the two cases of recording an error, what a completion writes, and the two bits of a STATUS write. -/
theorem errorsNestAndTheFirstIsKept : Obligations.ErrorsNestAndTheFirstIsKept := by
  refine ⟨fun c _ h => raiseCmdError_of_no_err c h, fun c _ h => raiseCmdError_of_err c h, fun s t _ hb hc => ?_,
    fun s => ?_⟩
  · obtain ⟨op, -, hcompleted⟩ := complete_next ((coreMove_complete_of_busy hb).symm.trans hc)
    exact hcompleted.sets_done_keeps_err
  · rw [clearStatus_done_bit, clearStatus_err_bit]
    exact ⟨rfl, rfl, rfl⟩

/-! ### The interrupt line -/

/-- The two sources of irq (60_exceptions.md R237). -/
theorem irq_eq_true_iff (s : State) :
    irq s = true ↔ (s.done = true ∧ s.doneie = true) ∨ (s.err = true ∧ s.errie = true) := by
  simp [irq]

/-- With DONE at 0 only an error raises irq. -/
theorem irq_of_not_done {s : State} (h : s.done = false) : irq s = (s.err && s.errie) := by
  simp [irq, h]

/-- With both enables at 0 nothing raises irq. -/
theorem irq_of_disabled {s : State} (hd : s.doneie = false) (he : s.errie = false) : irq s = false := by
  simp [irq, hd, he]

/-- Acceptance clears irq but for a recorded error: it clears DONE and leaves ERR and ERRIE. -/
theorem irq_started (i : Instr) (s : State) : irq (started i s) = (s.err && s.errie) := by
  rw [started_eq]
  exact irq_of_not_done rfl

/-- Settles O24: the level by its definition; each way it falls by the bits that way clears. -/
theorem interruptLineLevel : Obligations.InterruptLineLevel := by
  refine ⟨irq_eq_true_iff, fun s => ?_, fun _ => irq_of_disabled rfl rfl, fun _ => irq_of_disabled rfl rfl,
    fun i s t hb hw h => ?_⟩
  · rw [clearStatus_both_bits]
    exact irq_of_not_done rfl
  · cases h.symm.trans (exec_idle i s hb hw)
    exact irq_started i s

end Sys2Proof.Machine
end

section
/-! SUPPORT and the obligations of 70_reset_and_hazards.md: the reset event, what a completion publishes and what of it
the host sees, runs that leave the CORE to itself, and a host program with quiet events among its writes. -/

namespace Sys2Proof.Machine

/-! ### Reset -/

/-- Settles O41: it is the state the reset event leaves after itself. -/
theorem resetMeetsTheInvariant : Obligations.ResetMeetsTheInvariant := inv_resetEvent State.reset

/-- A core that has taken a command is busy with it (30_encoding.md R86). -/
theorem started_busy_opl (i : Instr) (s : State) : (started i s).busy = true ∧ (started i s).opl = some i.opcode := by
  rw [started_eq]
  exact ⟨rfl, rfl⟩

/-- Settles O25: the registers are those of the literal State.reset; an idle core takes every well-formed command. -/
theorem resetPutsEveryRegisterBack : Obligations.ResetPutsEveryRegisterBack := fun s =>
  ⟨resetEvent s, rfl, rfl, rfl, rfl, rfl, rfl, rfl, rfl, rfl, rfl, rfl, rfl, rfl, rfl, rfl, rfl, rfl,
    regValue_res_of_rcount_zero rfl, irq_of_disabled rfl rfl,
    fun i hw => ⟨started i (resetEvent s), exec_idle i _ rfl hw, started_busy_opl i _⟩⟩

/-! ### An idle core, and a busy core under host accesses -/

/-- Settles O44: no move of an idle core is enabled. -/
theorem idleCoreDoesNotMove : Obligations.IdleCoreDoesNotMove := fun _ _ hb => coreMove_of_idle hb

/-- Settles O16: of all that a host access can do, only writing an operand and starting a command reach further, and
both need an idle core. -/
theorem hostAccessesLeaveTheRunningCommandAlone : Obligations.HostAccessesLeaveTheRunningCommandAlone := by
  intro a s t hb h
  obtain ⟨u, hu, hc⟩ := hostAccess_cases a s
  cases h.symm.trans hu
  rcases hc with ⟨r, d, rfl⟩ | ⟨c, rfl⟩ | ⟨w, rfl⟩ | ⟨w, rfl⟩ | ⟨hidle, -⟩ | ⟨hidle, -⟩
  · rfl
  · rfl
  · rfl
  · rfl
  · simp [hb] at hidle
  · simp [hb] at hidle

/-! ### What a completion publishes, and what it leaves alone -/

/-- In a state of the invariant a busy core has a command in the latch (10_state.md R37). -/
theorem Inv.exists_opl {s : State} (hi : Inv s) (hb : s.busy = true) : ∃ op, s.opl = some op := by
  have hr := hi.running hb
  cases ho : s.opl with
  | none => simp [runningInv, ho] at hr
  | some op => exact ⟨op, rfl⟩

/-- A completion writes the result registers, BUSY, DONE and the engine's own registers, and nothing else
(20_memory.md R63). -/
theorem Inv.published_eq {s : State} (hi : Inv s) (hb : s.busy = true) (d : Lane) :
    published s d = { s with
      dout := (published s d).dout, subkey := (published s d).subkey
      res := (published s d).res, rcount := (published s d).rcount, busy := false, done := true
      ph := (published s d).ph, lane := (published s d).lane
      workers := (published s d).workers, mergePos := (published s d).mergePos } := by
  obtain ⟨op, ho⟩ := hi.exists_opl hb
  cases op <;> simp only [published, ho] <;> rfl

/-- RCOUNT counts the result of a completed SEARCH (43_key_search.md R198, R206). -/
theorem published_rcount_toNat (s : State) (d : Lane) : (published s d).rcount.toNat =
    if s.opl = some .search then (searchKeys coreTables s.pin s.tin).length else s.rcount.toNat := by
  rw [published_rcount]
  split
  · exact (searchKeys_results coreTables s.pin s.tin).symm
  · rfl

/-- The completion of a busy core, from every state of the invariant (70_reset_and_hazards.md R278). -/
theorem Inv.coreMove_complete {s : State} (hi : Inv s) (hb : s.busy = true) :
    ∃ d, coreMove .complete s = .next (published s d) := by
  obtain ⟨d, hd, -⟩ := complete_published hi hb
  exact ⟨d, (coreMove_complete_of_busy hb).trans hd⟩

/-- Settles O43: the completion publishes, and a publication is known register by register. -/
theorem completionPublishesTheResult : Obligations.CompletionPublishesTheResult := by
  intro s hi hb
  obtain ⟨d, hd⟩ := hi.coreMove_complete hb
  have heq := hi.published_eq hb d
  exact ⟨published s d, hd, by rw [heq], by rw [heq], published_dout s d, published_subkey s d, published_res s d,
    published_rcount_toNat s d, heq⟩

/-! ### Internal moves -/

/-- What a command publishes does not depend on how far it has come, nor on what it leaves in the working registers, but
for the engine's own registers (10_state.md R43). -/
theorem Silent.published {s t : State} (h : Silent s t) (d d' : Lane) : Silent (published s d) (published t d') := by
  obtain ⟨ph, l, ws, mp, rfl⟩ := h
  simp only [Machine.published]
  split <;> exact ⟨_, _, _, _, rfl⟩

/-- A run of CORE moves goes on from the state its first move leaves. -/
theorem runEvents_cores_cons {m : CoreMove} {s t : State} (h : coreMove m s = .next t) (ms : List CoreMove) :
    runEvents ((m :: ms).map .core) s = runEvents (ms.map .core) t :=
  runEvents_cons (e := .core m) h _

/-- An idle core makes no CORE move of a list. -/
theorem runEvents_cores_of_idle (ms : List CoreMove) {s : State} (hb : s.busy = false) :
    runEvents (ms.map .core) s = .next s := by
  induction ms with
  | nil => rfl
  | cons m ms ih => exact (runEvents_cores_cons (coreMove_of_idle hb) ms).trans ih

/-- CORE moves, however many and in whatever order, are silent or come to the completion, which leaves the same but for
the engine's own registers whenever it is made (70_reset_and_hazards.md R278). -/
theorem runEvents_cores (ms : List CoreMove) {s : State} (hi : Inv s) :
    ∃ t, runEvents (ms.map .core) s = .next t ∧
      ((Inv t ∧ Silent s t) ∨ (t.busy = false ∧ ∀ d, Silent (published s d) t)) := by
  induction ms generalizing s with
  | nil => exact ⟨s, rfl, .inl ⟨hi, Silent.refl s⟩⟩
  | cons m ms ih =>
    obtain ⟨u, hu, hiu, hsilent | ⟨hb, d, rfl⟩⟩ := coreMove_cases hi m
    · obtain ⟨t, ht, hcases⟩ := ih hiu
      refine ⟨t, (runEvents_cores_cons hu ms).trans ht, hcases.imp ?_ ?_⟩
      · rintro ⟨hit, hut⟩
        exact ⟨hit, hsilent.trans hut⟩
      · rintro ⟨hidle, hut⟩
        exact ⟨hidle, fun d => (hsilent.published d d).trans (hut d)⟩
    · have hidle : (published s d).busy = false := by rw [hi.published_eq hb d]
      exact ⟨_, (runEvents_cores_cons hu ms).trans (runEvents_cores_of_idle ms hidle),
        .inr ⟨hidle, fun d' => (Silent.refl s).published d' d⟩⟩

/-- A silent move leaves BUSY. -/
theorem Silent.busy {s t : State} (h : Silent s t) : t.busy = s.busy := by
  obtain ⟨_, _, _, _, rfl⟩ := h
  rfl

/-- What the host cannot tell apart it cannot tell apart the other way round. -/
theorem sameToHost.symm {s t : State} (h : sameToHost s t) : sameToHost t s :=
  ⟨fun reg => (h.1 reg).symm, h.2.symm⟩

/-- Settles O45: the moves are silent, and then the completion is still to come and publishes the same; or they have come
to it. -/
theorem internalMovesDoNotShow : Obligations.InternalMovesDoNotShow := by
  intro ms s hi hb _
  obtain ⟨t, ht, hcases⟩ := runEvents_cores ms hi
  obtain ⟨d, hd⟩ := hi.coreMove_complete hb
  refine ⟨t, published s d, ht, hd, ?_⟩
  rcases hcases with ⟨hit, hsilent⟩ | ⟨hidle, hsilent⟩
  · have hbt : t.busy = true := hsilent.busy.trans hb
    obtain ⟨d', hd'⟩ := hit.coreMove_complete hbt
    exact .inr ⟨hbt, hsilent.sameToHost, published t d', hd', (hsilent.published d d').sameToHost⟩
  · exact .inl ⟨hidle, (hsilent d).sameToHost.symm⟩

/-! ### The machine left to itself -/

/-- No event changes the list of those still to happen. -/
theorem event_inputs {e : Event} {s t : State} (hi : Inv s) (h : event e s = .next t) : t.inputs = s.inputs := by
  match e with
  | .reset => cases h; rfl
  | .core m =>
    obtain ⟨u, hu, -, ⟨_, _, _, _, rfl⟩ | ⟨hb, d, rfl⟩⟩ := coreMove_cases hi m
    · cases h.symm.trans hu
      rfl
    · cases h.symm.trans hu
      rw [hi.published_eq hb d]
  | .access a =>
    obtain ⟨u, hu, hc⟩ := hostAccess_cases a s
    cases h.symm.trans hu
    rcases hc with ⟨r, d, rfl⟩ | ⟨c, rfl⟩ | ⟨w, rfl⟩ | ⟨w, rfl⟩ | ⟨-, d, k, g, rfl⟩ | ⟨-, i, -, rfl⟩
    case inr.inr.inr.inr.inr => rw [started_eq]; rfl
    all_goals rfl

/-- A run goes on from the state its first step leaves. -/
theorem core_run_succ {s t : State} (h : step s = .next t) (k : Nat) :
    Host.Core.run Sys2Proof.core (k + 1) s = Host.Core.run Sys2Proof.core k t := by
  have hstep : Sys2Proof.core.step s = .next t := h
  simp only [Host.Core.run, hstep]

/-- With no event listed, one step leaves an idle core (70_reset_and_hazards.md R278, R281). -/
theorem step_idle_of_inputs_nil {s : State} (hi : Inv s) (hin : s.inputs = []) :
    ∃ t, step s = .next t ∧ t.busy = false := by
  rw [step_of_inputs_nil hin]
  cases hb : s.busy with
  | false => exact ⟨s, coreMove_of_idle hb, hb⟩
  | true =>
    obtain ⟨d, hd⟩ := hi.coreMove_complete hb
    exact ⟨_, hd, by rw [hi.published_eq hb d]⟩

/-- From a state of the invariant, one step more than there are listed events leaves an idle core. -/
theorem core_run_idle {es : List Event} {s : State} (hi : Inv s) (hin : s.inputs = es) :
    ∃ t, Host.Core.run Sys2Proof.core (es.length + 1) s = .next t ∧ t.busy = false := by
  induction es generalizing s with
  | nil =>
    obtain ⟨t, ht, hidle⟩ := step_idle_of_inputs_nil hi hin
    exact ⟨t, core_run_succ ht 0, hidle⟩
  | cons e es ih =>
    have hi' : Inv { s with inputs := es } := inv_inputs hi es
    obtain ⟨u, hu⟩ := exists_event_next hi' e
    obtain ⟨t, ht, hidle⟩ := ih (inv_event e hi' hu) (event_inputs hi' hu)
    exact ⟨t, (core_run_succ ((step_of_inputs_cons hin).trans hu) _).trans ht, hidle⟩

/-- Settles O49: each step takes one listed event, and the step after them completes. -/
theorem acceptedCommandsComplete : Obligations.AcceptedCommandsComplete := fun _ hi => core_run_idle hi rfl

/-! ### A host program with quiet events among its writes -/

/-- However host reads and CORE moves stand among and after the host writes ws, a run from P ends in Q. -/
def Leads (P : State → Prop) (ws : List Event) (Q : State → Prop) : Prop :=
  ∀ (es : List Event) (s t : State), P s → es.filter (fun e => !isQuiet e) = ws → runEvents es s = .next t → Q t

/-- The event e leads from P to Q. -/
def After (P : State → Prop) (e : Event) (Q : State → Prop) : Prop := ∀ s t, P s → event e s = .next t → Q t

/-- Host reads and CORE moves keep P. -/
def Stable (P : State → Prop) : Prop := ∀ e, isQuiet e = true → After P e P

/-- A run that ends makes its first event, then the others. -/
theorem runEvents_cons_next {e : Event} {es : List Event} {s t : State} (h : runEvents (e :: es) s = .next t) :
    ∃ u, event e s = .next u ∧ runEvents es u = .next t := by
  simp only [runEvents] at h
  split at h
  · exact ⟨_, ‹_›, h⟩
  · cases h
  · cases h

/-- Without host writes nothing leaves what is stable. -/
theorem Leads.nil {P : State → Prop} (hP : Stable P) : Leads P [] P := by
  intro es s t hs hw h
  induction es generalizing s with
  | nil => cases h; exact hs
  | cons e es ih =>
    obtain ⟨u, hu, hrun⟩ := runEvents_cons_next h
    cases hq : isQuiet e with
    | true => exact ih u (hP e hq s u hs hu) (by simpa [hq] using hw) hrun
    | false => simp [hq] at hw

/-- The first host write is made from what is stable before it. -/
theorem Leads.cons {P Q R : State → Prop} {w : Event} {ws : List Event} (hP : Stable P) (hw : After P w Q)
    (hrest : Leads Q ws R) : Leads P (w :: ws) R := by
  intro es s t hs hes h
  induction es generalizing s with
  | nil => simp at hes
  | cons e es ih =>
    obtain ⟨u, hu, hrun⟩ := runEvents_cons_next h
    cases hq : isQuiet e with
    | true => exact ih u (hP e hq s u hs hu) (by simpa [hq] using hes) hrun
    | false =>
      obtain ⟨rfl, htail⟩ : e = w ∧ es.filter (fun e => !isQuiet e) = ws := by simpa [hq] using hes
      exact hrest es u t (hw s u hs hu) htail hrun

/-! ### What a polling host knows -/

/-- t differs from s at most in the engine's own registers, the bus response and the model's count of draws. -/
def Unseen (s t : State) : Prop := ∃ r n, Silent { s with resp := r, draws := n } t

/-- A host read or a CORE move is not seen, or is the completion. -/
theorem quiet_cases {e : Event} {s t : State} (hi : Inv s) (hq : isQuiet e = true) (h : event e s = .next t) :
    Unseen s t ∨ (s.busy = true ∧ ∃ d, t = published s d) := by
  match e with
  | .access (.read off size) =>
    obtain ⟨r, n, hread⟩ := memRead_eq off size s
    cases h.symm.trans hread
    exact .inl ⟨r, n, Silent.refl _⟩
  | .core m =>
    obtain ⟨u, hu, -, hsilent | hpub⟩ := coreMove_cases hi m
    · cases h.symm.trans hu
      exact .inl ⟨s.resp, s.draws, hsilent⟩
    · cases h.symm.trans hu
      exact .inr hpub

/-- Of a state of the invariant, X holds unless an error is recorded. -/
def UnlessErr (X : State → Prop) (s : State) : Prop := Inv s ∧ (s.err = false → X s)

/-- Quiet events neither record nor clear an error, so what they keep they keep unless an error is recorded. -/
theorem stable_unlessErr {X : State → Prop} (hunseen : ∀ s t, Unseen s t → X s → X t)
    (hpub : ∀ s d, Inv s → s.busy = true → X s → X (published s d)) : Stable (UnlessErr X) := by
  rintro e hq s t ⟨hi, hX⟩ h
  refine ⟨inv_event e hi h, fun herr => ?_⟩
  rcases quiet_cases hi hq h with hu | ⟨hb, d, rfl⟩
  · refine hunseen s t hu (hX ?_)
    obtain ⟨_, _, _, _, _, _, rfl⟩ := hu
    exact herr
  · rw [hi.published_eq hb d] at herr
    exact hpub s d hi hb (hX herr)

/-- What is said of an idle core only has no completion to outlive. -/
theorem stable_unlessErr_of_idle {X : State → Prop} (hunseen : ∀ s t, Unseen s t → X s → X t)
    (hidle : ∀ s, X s → s.busy = false) : Stable (UnlessErr X) :=
  stable_unlessErr hunseen fun s _ _ hb hX => Bool.noConfusion (hb.symm.trans (hidle s hX))

/-- A write that only an idle core takes records an error on a busy one, so unless an error is recorded it was taken
(70_reset_and_hazards.md R274). -/
theorem after_whenIdle {X Y : State → Prop} {e : Event} {f : State → State}
    (he : ∀ s, event e s = .next (whenIdle (respond .ok s) f)) (herr : ∀ s, (f s).err = s.err)
    (hf : ∀ s, s.busy = false → X s → Y (f (respond .ok s))) : After (UnlessErr X) e (UnlessErr Y) := by
  rintro s t ⟨hi, hX⟩ h
  refine ⟨inv_event e hi h, fun hno => ?_⟩
  cases h.symm.trans (he s)
  cases hb : s.busy with
  | true =>
    rw [whenIdle_busy (s := respond .ok s) f hb] at hno
    cases hno
  | false =>
    rw [whenIdle_idle (s := respond .ok s) f hb] at hno ⊢
    exact hf s hb (hX ((herr (respond .ok s)).symm.trans hno))

/-- An idle core whose DIN holds p. -/
def HoldsDin (p : Block) (s : State) : Prop := s.busy = false ∧ s.din = p

/-- An idle core whose DIN holds p and whose KEY holds k. -/
def HoldsOperands (p : Block) (k : Key) (s : State) : Prop := s.busy = false ∧ s.din = p ∧ s.key = k

/-- A core that runs ENCRYPT on p and k, or is idle with its result in DOUT. -/
def Encrypts (p : Block) (k : Key) (s : State) : Prop :=
  (s.busy = true ∧ s.opl = some .encrypt ∧ s.pin = p ∧ s.kin = k) ∨
  (s.busy = false ∧ s.dout = encrypt coreTables p k)

/-- Quiet events keep the invariant. -/
theorem stable_inv : Stable (UnlessErr fun _ => True) :=
  stable_unlessErr (fun _ _ _ _ => trivial) (fun _ _ _ _ _ => trivial)

/-- Quiet events do not write the operand registers of an idle core (10_state.md R21). -/
theorem stable_holdsDin (p : Block) : Stable (UnlessErr (HoldsDin p)) :=
  stable_unlessErr_of_idle (fun | _, _, ⟨_, _, _, _, _, _, rfl⟩, h => h) fun _ h => h.1

/-- Nor KEY beside DIN (10_state.md R22). -/
theorem stable_holdsOperands (p : Block) (k : Key) : Stable (UnlessErr (HoldsOperands p k)) :=
  stable_unlessErr_of_idle (fun | _, _, ⟨_, _, _, _, _, _, rfl⟩, h => h) fun _ h => h.1

/-- Before the completion the snapshots stay; the completion publishes their encryption (42_cipher.md R163). -/
theorem stable_encrypts (p : Block) (k : Key) : Stable (UnlessErr (Encrypts p k)) := by
  refine stable_unlessErr ?_ ?_
  · rintro s _ ⟨_, _, _, _, _, _, rfl⟩ h
    exact h
  · rintro s d hi hb (⟨-, ho, rfl, rfl⟩ | ⟨hidle, -⟩)
    · refine .inr ⟨by rw [hi.published_eq hb d], ?_⟩
      rw [published_dout, if_pos ho]
    · simp [hb] at hidle

/-- CLR is a write of STATUS: whatever it clears, the invariant is kept. -/
theorem after_clr : After (UnlessErr fun _ => True) (.access clr) (UnlessErr fun _ => True) :=
  fun _ _ hs h => ⟨inv_event _ hs.1 h, fun _ => trivial⟩

/-- DIN takes the low byte of the word written (20_memory.md R58). -/
theorem after_wr_din (w : BusWord) :
    After (UnlessErr fun _ => True) (.access (wr .din w)) (UnlessErr (HoldsDin (w.setWidth 8))) :=
  after_whenIdle (f := fun s => { s with din := w.setWidth 8 })
    (fun s => memWrite_of_check (off := 0x010) .din w s rfl) (fun _ => rfl) (fun _ hb _ => ⟨hb, rfl⟩)

/-- KEY takes the low 10 bits of the word written, and DIN stays (20_memory.md R58). -/
theorem after_wr_key (p : Block) (w : BusWord) :
    After (UnlessErr (HoldsDin p)) (.access (wr .key w)) (UnlessErr (HoldsOperands p (w.setWidth 10))) :=
  after_whenIdle (f := fun s => { s with key := w.setWidth 10 })
    (fun s => memWrite_of_check (off := 0x014) .key w s rfl) (fun _ => rfl) (fun _ hb h => ⟨hb, h.2, rfl⟩)

/-- The word of ENCRYPT starts it on the operands (30_encoding.md R86). -/
theorem after_issue_encrypt (p : Block) (k : Key) :
    After (UnlessErr (HoldsOperands p k)) (.access (issue .encrypt)) (UnlessErr (Encrypts p k)) := by
  refine after_whenIdle (f := started .encrypt) (fun s => ?_) (fun _ => rfl) ?_
  · have hword : decode (encode .encrypt) = .accept .encrypt := by decide
    exact (memWrite_of_check (off := 0x000) .cmd (encode .encrypt) s rfl).trans (command_of_accept _ hword)
  · rintro s - ⟨-, hdin, hkey⟩
    exact .inl ⟨rfl, rfl, hdin, hkey⟩

/-- The host program of R277 leaves a core that runs its ENCRYPT or has completed it, unless an error is recorded. -/
theorem polled_encrypt_leads (d k : BusWord) :
    Leads (UnlessErr fun _ => True) (accesses [clr, wr .din d, wr .key k, issue .encrypt])
      (UnlessErr (Encrypts (d.setWidth 8) (k.setWidth 10))) :=
  .cons stable_inv after_clr <|
  .cons stable_inv (after_wr_din d) <|
  .cons (stable_holdsDin _) (after_wr_key _ k) <|
  .cons (stable_holdsOperands _ _) (after_issue_encrypt _ _) <|
  .nil (stable_encrypts _ _)

/-- Settles O50: a write that found the core busy would have left ERR = 1, so each was taken; with DONE = 1 the core is
not busy, so its ENCRYPT has completed. -/
theorem polledEncryptionIsTheHostsOwn : Obligations.PolledEncryptionIsTheHostsOwn := by
  intro s t es d k hi hes hrun herr hdone
  obtain ⟨hit, hown⟩ := polled_encrypt_leads d k es s t ⟨hi, fun _ => trivial⟩ hes hrun
  rcases hown herr with ⟨hb, -⟩ | ⟨-, hdout⟩
  · exact absurd ⟨hb, hdone⟩ hit.busyDone
  · exact hdout

end Sys2Proof.Machine
end
